-- ==== Sys2Proof/Word.lean ====
section
/-! DEFINITION. The word types of the command port (30_encoding R70, R84; 10_state R23). Every field is unsigned (00_scope R13). -/

namespace Sys2Proof

/-- A command word: 64 bits, bit 63 most significant (R70). -/
abbrev Word := BitVec 64

/-- An 8-bit field: a colour value, a channel number, an index or a count (R71, R23). -/
abbrev Byte := BitVec 8

/-- The 32-bit DATA of a response (R84). -/
abbrev Data := BitVec 32

end Sys2Proof
end

