-- ==== Sys2Proof/Config.lean ====
section
/-! DEFINITION. What never changes while the block runs: the topology, the six lines, and the parameters the spec
leaves OPEN (00_scope R6, R8 to R11). The OPEN ones are opaque constants: no proof can see their values, so every
statement holds for all of them. The numeric frame constants stand in Machine/Constants.lean. -/

namespace Sys2Proof

/-- A channel index c = channel number - 1, below NUM_CHANNELS = 4 (R6, R21). The types carry the number itself, so that
arithmetic sees it; the checks use `Machine.numChannels`. -/
abbrev ChanIdx := Fin 4

/-- The channel indices in ascending order (R192). -/
def allChannels : List ChanIdx := [0, 1, 2, 3]

/-- LINES, the six output lines: DAT, CLK and SEL0 to SEL3 (R30); SELk serves channel index k. -/
inductive Line where
  | dat
  | clk
  | sel (k : ChanIdx)
  deriving DecidableEq, Repr

/-- The six lines in the order INIT names them (R221). -/
def allLines : List Line := [.dat, .clk, .sel 0, .sel 1, .sel 2, .sel 3]

/-- The logical number of a line: only a name for the line, which `Config.pinMap` translates (R248). -/
def Line.number : Line → Nat
  | .dat => 0
  | .clk => 1
  | .sel k => k.val + 2

/-- The default of DESELECT_AFTER_FRAME: 0 (R10, decision D15). -/
def deselectDefault : Bool := false

/-- The parameters the frame operations read (R8, R9, R10). The operations take them as an argument, so that a
statement can be about every value of them or name one. -/
structure Params where
  /-- BRIGHTNESS, 0 to 31 (R8). -/
  brightness : BitVec 5
  /-- GAMMA_FN, a total function of 8-bit values (R9). -/
  gammaFn : Byte → Byte
  /-- DESELECT_AFTER_FRAME, 0 unless it is given (R10). -/
  deselectAfterFrame : Bool := deselectDefault

/-- BRIGHTNESS: OPEN (R8, decision D18). Safe: nothing is assumed of it (log entry 3). -/
opaque Config.brightness : BitVec 5

/-- GAMMA_FN: OPEN (R9, decision D19). Safe: nothing is assumed of it (log entry 3). -/
opaque Config.gammaFn : Byte → Byte

/-- The value an implementation gives DESELECT_AFTER_FRAME; `none` where it gives none. DESIGN CHOICE, safe: whether it
gives one is left open (log entry 3). -/
opaque Config.deselectSetting : Option Bool

/-- DESELECT_AFTER_FRAME: what the implementation sets, and the default 0 where it sets nothing (R10, decision D15). -/
def Config.deselectAfterFrame : Bool := Config.deselectSetting.getD deselectDefault

/-- With nothing set, DESELECT_AFTER_FRAME is 0 (R10). -/
theorem Config.deselectAfterFrame_of_unset (h : Config.deselectSetting = none) : Config.deselectAfterFrame = false := by
  rw [Config.deselectAfterFrame, h]
  rfl

/-- The parameters of the machine. -/
def Config.params : Params where
  brightness := Config.brightness
  gammaFn := Config.gammaFn
  deselectAfterFrame := Config.deselectAfterFrame

/-- The pin-numbering translation behind PIN_MAP: OPEN (R11, R248). DESIGN CHOICE, safe: every injective map of six
lines to numbers extends to a permutation of the numbers, so a permutation loses none (log entry 4). -/
opaque Config.pinNumbering : Equiv.Perm Nat

/-- PIN_MAP (R11): an injective map of the lines to platform pin identifiers. No rule reads it. -/
def Config.pinMap (l : Line) : Nat := Config.pinNumbering l.number

/-- The level in LAT[L] after the n-th reset that follows power-on: the spec says "unspecified" (R32, R270).
DESIGN CHOICE, safe: a free value, which nothing constrains (log entry 2). -/
opaque Config.latchAfterReset : Nat → Line → Bool

end Sys2Proof
end

