-- ==== Sys2Proof/Machine/State.lean ====
section
/-! DEFINITION. The state of the block (10_state R20), the two observations (00_scope R5), the host's side of the port,
and the state at power-on (70_reset_and_hazards R270). Plain data throughout. -/

namespace Sys2Proof.Machine

/-- A pixel: three 8-bit intensities (R23). -/
structure Pixel where
  r : Byte
  g : Byte
  b : Byte
  deriving DecidableEq, Repr

/-- A channel configuration (R22). COUNT is the length of `pix`, at most 16: see `Sys2Proof.ChannelsBounded`. -/
structure ChannelCfg where
  gamma : Bool
  pix : List Pixel
  deriving DecidableEq, Repr

/-- MODE[L] (R32). -/
inductive LineMode where
  /-- IN: the pin is not driven. -/
  | input
  /-- OUT: the pin follows the latch. -/
  | output
  deriving DecidableEq, Repr

/-- One value for each of the six lines (R30). -/
structure PerLine (α : Type) where
  dat : α
  clk : α
  sel : Vector α 4
  deriving DecidableEq, Repr

/-- MODE and LAT of the six lines (R32). A level is a Bool: false is 0, true is 1. -/
structure LineState where
  mode : PerLine LineMode
  lat : PerLine Bool
  deriving DecidableEq, Repr

/-- A line event (R5). -/
inductive Event where
  /-- Setup: the pin driver's GPIO-setup initializer (R248). -/
  | setup
  /-- Mode(L, OUT). -/
  | modeOut (l : Line)
  /-- Write(L, v). -/
  | write (l : Line) (v : Bool)
  /-- Reset: a reset after power-on (R271). -/
  | reset
  deriving DecidableEq, Repr

/-- The STATUS of a response (R240). -/
inductive Status where
  | ok
  | invalidChannel
  | tooManyPixels
  | channelNotConfigured
  | indexOutOfRange
  | illegalCommand
  | notInitialized
  | faulted
  deriving DecidableEq, Repr

/-- A response (R84). -/
structure Response where
  status : Status
  data : Data
  deriving DecidableEq, Repr

/-- What stands at the block's inputs next (R4, R70, R271). -/
inductive HostInput where
  /-- The host offers a command word. It is held while BUSY, taken otherwise (R34). -/
  | command (w : Word)
  /-- The reset input is asserted; a command the host offers at the same moment, if any, is cancelled (R252, R271). -/
  | reset (coinciding : Option Word)
  /-- For one step neither happens: the host owes the block no pace (R279). -/
  | idle
  deriving DecidableEq, Repr

/-- The state: the block's elements of R20, then the model's own three fields. -/
structure State where
  /-- CHAN[0..3]; `none` is ABSENT (R21). -/
  chan : Vector (Option ChannelCfg) 4
  /-- INIT_DONE (R27). -/
  initDone : Bool
  /-- FAULT (R28). -/
  fault : Bool
  /-- MODE and LAT (R32). -/
  lines : LineState
  /-- PENDING (R34). -/
  pending : List Event
  /-- TR, oldest event first (R35). -/
  tr : List Event
  /-- The responses given so far, oldest first: an observation (R5). The model's own field (log entry 6). -/
  responses : List Response
  /-- What the host and the reset input do next: the environment's part. The model's own field (log entry 5). -/
  inputs : List HostInput
  /-- The number of resets since power-on, which numbers the free latch values. The model's own field (log entry 2). -/
  resetCount : Nat
  deriving DecidableEq, Repr

/-- The reasons a step stops the machine: none. The spec reports every error in a response and goes on (R241, R245);
its FAULT is a flag of the state, not a stop (R243). -/
inductive Fault where
  deriving DecidableEq, Repr

/-- The reasons a step gives no meaning. -/
inductive Refusal where
  /-- An instruction without a meaning. No arm of `exec` raises it: every command is modelled. It would be safe. -/
  | notModelled (mnemonic : String)
  deriving DecidableEq, Repr

/-- Every channel ABSENT (R21, R270). -/
def noChannels : Vector (Option ChannelCfg) 4 := Vector.replicate 4 none

/-- The same value for every line. -/
def PerLine.const {α : Type} (x : α) : PerLine α := ⟨x, x, Vector.replicate 4 x⟩

/-- The lines at power-on: every MODE is IN (R270). Every LAT is 0: DESIGN CHOICE, unsafe, since the spec says
"unspecified" (log entry 1). -/
def powerOnLines : LineState := ⟨.const .input, .const false⟩

/-- The machine right after power-on (R270), with nothing at its inputs (log entry 5). -/
def State.reset : State where
  chan := noChannels
  initDone := false
  fault := false
  lines := powerOnLines
  pending := []
  tr := []
  responses := []
  inputs := []
  resetCount := 0

end Sys2Proof.Machine
end

