-- ==== Sys2Proof/Machine/Lines.lean ====
section
/-! DEFINITION. Reading and writing MODE and LAT, what a line event does to them, and the pin levels
(10_state R32, R33; 41_frame_encoder R140; 00_scope R15). -/

namespace Sys2Proof.Machine

/-- The value a line has. -/
def PerLine.get {α : Type} (v : PerLine α) : Line → α
  | .dat => v.dat
  | .clk => v.clk
  | .sel k => v.sel[k]

/-- The values with one line's replaced. -/
def PerLine.set {α : Type} (v : PerLine α) (l : Line) (x : α) : PerLine α :=
  match l with
  | .dat => { v with dat := x }
  | .clk => { v with clk := x }
  | .sel k => { v with sel := v.sel.set k x }

/-- The values a function of the line gives. -/
def PerLine.ofFn {α : Type} (f : Line → α) : PerLine α :=
  ⟨f .dat, f .clk, #v[f (.sel 0), f (.sel 1), f (.sel 2), f (.sel 3)]⟩

/-- What an event does to MODE and LAT: `Write(L, v)` sets LAT[L] (R140), `Mode(L, OUT)` sets MODE[L] (R15), `Reset`
sets every MODE to IN (R33), `Setup` does neither. That LAT stays as it was under `Reset` is DESIGN CHOICE, unsafe: R33
names MODE alone, and R32 and R270 leave LAT unspecified at a reset. No pin shows it while the MODEs are IN (log
entry 16). The block's own LAT after a reset is a free value: see `resetBlock`. -/
def LineState.apply (s : LineState) : Event → LineState
  | .setup => s
  | .modeOut l => { s with mode := s.mode.set l .output }
  | .write l v => { s with lat := s.lat.set l v }
  | .reset => { s with mode := .const .input }

/-- The lines after a list of events, in order (R63). -/
def LineState.applyAll (s : LineState) (es : List Event) : LineState := es.foldl LineState.apply s

/-- A pin level (R33). -/
inductive PinLevel where
  /-- Z: not driven. -/
  | z
  /-- Driven at this level. -/
  | level (v : Bool)
  deriving DecidableEq, Repr

/-- PIN[L]: LAT[L] if MODE[L] = OUT, else Z (R33). That a line in input mode is not driven is PRESUMED by the spec
itself ("from general knowledge, not in source"; log entry 8). -/
def LineState.pin (s : LineState) (l : Line) : PinLevel :=
  match s.mode.get l with
  | .input => .z
  | .output => .level (s.lat.get l)

end Sys2Proof.Machine
end

