-- ==== Sys2Proof/Machine/Storage.lean ====
section
/-! DEFINITION. Reading the channel slots (10_state R21; 00_scope R13). -/

namespace Sys2Proof.Machine

/-- CHAN[c] (R21). -/
def chanAt (chan : Vector (Option ChannelCfg) 4) (c : ChanIdx) : Option ChannelCfg := chan[c]

end Sys2Proof.Machine
end

