-- ==== Sys2Proof/Machine/Ops.lean ====
section
/-! DEFINITION. The named operations the commands share: responding, raising an error, performing line events, the
pixel store's two primitives, the sequencer step, and reset (00_scope R15, 10_state R34, 20_memory R51,
60_exceptions R241, 70_reset_and_hazards R270, R271). The block has no trap (R245, R246): raising an error is a
response and nothing else, so there is no state to save and nothing to return from. -/

namespace Sys2Proof.Machine

/-! ## Responses -/

/-- The numeric code of a STATUS (R240). Codes 0x8 to 0xF are never produced. -/
def Status.code : Status → BitVec 4
  | .ok => 0x0
  | .invalidChannel => 0x1
  | .tooManyPixels => 0x2
  | .channelNotConfigured => 0x3
  | .indexOutOfRange => 0x4
  | .illegalCommand => 0x5
  | .notInitialized => 0x6
  | .faulted => 0x7

/-- The 64-bit response word: bits [63:36] are 0, STATUS in [35:32], DATA in [31:0] (R84). -/
def Response.pack (r : Response) : Word := r.status.code.setWidth 64 <<< 32 ||| r.data.setWidth 64

/-- `respond(st, d)`: the command's one response (R15, R84). -/
def respond (st : Status) (d : Data) (s : State) : State :=
  { s with responses := s.responses ++ [⟨st, d⟩] }

/-- `raise E`: `respond(E, 0)` with no state change (R15, R241). -/
def raise (e : Status) (s : State) : State := respond e 0 s

/-- Every command but RDSTAT is refused with Faulted while FAULT = 1 (R242, R243). -/
def unlessFaulted (s : State) (act : State → State) : State :=
  if s.fault then raise .faulted s else act s

/-! ## Line events -/

/-- Perform one event: MODE and LAT change as it says, and it is appended to TR (R15, R34, R140). -/
def perform (s : State) (e : Event) : State :=
  { s with lines := s.lines.apply e, tr := s.tr ++ [e] }

/-- Perform a list of events in order (R63). -/
def performAll (s : State) (es : List Event) : State := es.foldl perform s

/-! ## The sequencer -/

/-- BUSY (R34). -/
def busy (s : State) : Bool := !s.pending.isEmpty

/-- A sequencer step: the head of PENDING is performed, and the step that empties PENDING delivers the SHOW's response
(R34, R194). It is enabled only when BUSY: otherwise nothing changes. -/
def sequencerStep (s : State) : State :=
  match s.pending with
  | [] => s
  | e :: rest =>
    let performed := perform { s with pending := rest } e
    if rest.isEmpty then respond .ok 0 performed else performed

/-- SHOW's acceptance of its event list: PENDING <- E, and the response once PENDING is empty, which is at once when
E = [] (R190). -/
def startShow (es : List Event) (s : State) : State :=
  let accepted := { s with pending := es }
  if es.isEmpty then respond .ok 0 accepted else accepted

/-! ## The pixel store -/

/-- CHAN[c] <- x (R15). -/
def setChan (s : State) (c : ChanIdx) (x : Option ChannelCfg) : State := { s with chan := s.chan.set c x }

/-- `PixRead(c, i)` (R51): defined only when CHAN[c] is not ABSENT and i < COUNT. -/
def pixRead (s : State) (c : ChanIdx) (i : Nat) : Option Pixel :=
  match chanAt s.chan c with
  | none => none
  | some cfg => cfg.pix[i]?

/-- `PixWrite(c, i, p)` (R51): pixel i of channel c, and nothing else. Outside R51's domain, on an ABSENT
channel or at an index at or above COUNT, it leaves the state as it is: DESIGN CHOICE, safe, since every command checks
first that the pixel exists (log entry 15). -/
def pixWrite (s : State) (c : ChanIdx) (i : Nat) (p : Pixel) : State :=
  match chanAt s.chan c with
  | none => s
  | some cfg => setChan s c (some { cfg with pix := cfg.pix.set i p })

/-- A freshly configured channel: n pixels (0, 0, 0) and the gamma flag (R100, R26). -/
def freshChannel (n : Nat) (gm : Bool) : ChannelCfg := ⟨gm, List.replicate n ⟨0, 0, 0⟩⟩

/-! ## Reset -/

/-- A reset after power-on (R270, R271): every element at its reset value, PENDING dropped, and the event Reset
appended to TR. LAT is a free value (log entry 2). No response is given. -/
def resetBlock (s : State) : State :=
  { s with
    chan := noChannels
    initDone := false
    fault := false
    lines := ⟨.const .input, .ofFn (Config.latchAfterReset s.resetCount)⟩
    pending := []
    tr := s.tr ++ [.reset]
    resetCount := s.resetCount + 1 }

end Sys2Proof.Machine
end

