-- ==== Sys2Proof/Machine/Flags.lean ====
section
/-! DEFINITION. The two flags, INIT_DONE and FAULT, and the read-only views (10_state R24, R25, R27 to R29, R31). The
block has no condition codes (R38). -/

namespace Sys2Proof.Machine

/-- INIT_DONE <- 1: INIT alone does this (R27). -/
def setInitDone (s : State) : State := { s with initDone := true }

/-- FAULT <- 1: a SHOW that finds INIT_DONE = 0 alone does this (R28). -/
def setFault (s : State) : State := { s with fault := true }

/-- BRIGHT: hardwired to BRIGHTNESS (R29). -/
def bright : BitVec 5 := Config.params.brightness

/-- PIXVIEW(p): [31:24] 0, [23:16] r, [15:8] g, [7:0] b (R25). -/
def pixView (p : Pixel) : Data := p.r.setWidth 32 <<< 16 ||| p.g.setWidth 32 <<< 8 ||| p.b.setWidth 32

/-- CFGVIEW(c): [31:8] 0, [7] PRESENT, [6] 0, [5] GAMMA, [4:0] COUNT; all 0 if ABSENT (R24). -/
def cfgView : Option ChannelCfg → Data
  | none => 0
  | some cfg =>
    1#32 <<< 7 ||| (BitVec.ofBool cfg.gamma).setWidth 32 <<< 5 ||| (BitVec.ofNat 5 cfg.pix.length).setWidth 32

/-- STATVIEW for a given BRIGHT: [31:13] 0, [12:8] BRIGHT, [7:2] 0, [1] FAULT, [0] INIT_DONE (R31). -/
def statView (brightness : BitVec 5) (fault initDone : Bool) : Data :=
  brightness.setWidth 32 <<< 8 ||| (BitVec.ofBool fault).setWidth 32 <<< 1 ||| (BitVec.ofBool initDone).setWidth 32

end Sys2Proof.Machine
end

