-- ==== Sys2Proof/Machine/Constants.lean ====
section
/-! DEFINITION. The numeric literals of the source, each a named constant so that a correction changes one place
(00_scope R6, R7; 42_channel_selector R170; decision D28). -/

namespace Sys2Proof.Machine

/-- NUM_CHANNELS (R6). The type of a channel index holds the same number (Config.lean). -/
def numChannels : Nat := 4

/-- MAX_PIXELS (R6). -/
def maxPixels : Nat := 16

/-- SOF_PULSES (R7). -/
def sofPulses : Nat := 32

/-- EOF_PULSES (R7). -/
def eofPulses : Nat := 36

/-- HDR_PREFIX, bits [7:5] of every pixel's first byte (R7). -/
def hdrPrefix : BitVec 3 := 0b111#3

/-- SEL_ACTIVE, the level that makes a channel active: 0 (R170). -/
def selActive : Bool := false

/-- SEL_INACTIVE: 1 (R170). -/
def selInactive : Bool := true

end Sys2Proof.Machine
end

