-- ==== Sys2Proof/Machine/Framer.lean ====
section
/-! DEFINITION. The bit-serial framer: pure functions from operands and parameters to lists of line events
(41_frame_encoder R140 to R149, R154). -/

namespace Sys2Proof.Machine

/-- drive, one line write (R140). -/
def drive (l : Line) (v : Bool) : List Event := [.write l v]

/-- pulse, one clock pulse (R141). -/
def pulse : List Event := drive .clk true ++ drive .clk false

/-- shiftBit, one data bit (R142). -/
def shiftBit (v : Bool) : List Event := drive .dat v ++ pulse

/-- The bits of a byte, most significant first (R14, R55). -/
def bitsMSB8 (x : Byte) : List Bool := [7, 6, 5, 4, 3, 2, 1, 0].map x.getLsbD

/-- writeByte, the MSB-first shifter (R143). -/
def writeByte (x : Byte) : List Event := (bitsMSB8 x).flatMap shiftBit

/-- HDR = 0xE0 | BRIGHTNESS: HDR_PREFIX in [7:5], BRIGHTNESS in [4:0] (R144). -/
def hdr (P : Params) : Byte := hdrPrefix.setWidth 8 <<< 5 ||| P.brightness.setWidth 8

/-- gc, the gamma step (R146). -/
def gc (P : Params) (gm : Bool) (x : Byte) : Byte := if gm then P.gammaFn x else x

/-- pixelOut, one pixel's four bytes: header, blue, green, red (R145, R54). -/
def pixelOut (P : Params) (p : Pixel) (gm : Bool) : List Event :=
  writeByte (hdr P) ++ writeByte (gc P gm p.b) ++ writeByte (gc P gm p.g) ++ writeByte (gc P gm p.r)

/-- n clock pulses in a row. -/
def pulses (n : Nat) : List Event := (List.replicate n pulse).flatten

/-- sof, the start-of-frame marker (R147). -/
def sof : List Event := drive .dat false ++ pulses sofPulses

/-- eof, the end-of-frame marker (R148). -/
def eof : List Event := drive .dat false ++ pulses eofPulses

/-- frame, one channel's whole frame (R149). -/
def frame (P : Params) (cfg : ChannelCfg) : List Event :=
  sof ++ cfg.pix.flatMap (fun p => pixelOut P p cfg.gamma) ++ eof

end Sys2Proof.Machine
end

