-- ==== Sys2Proof/Machine/Control.lean ====
section
/-! DEFINITION. The control commands NOP, INIT and RDSTAT (44_control R220 to R222). -/

namespace Sys2Proof.Machine

/-- NOP (R220). -/
def execNop (s : State) : Host.Outcome State Fault Refusal :=
  .next (unlessFaulted s (respond .ok 0))

/-- The 13 events of INIT, in order: the latches are written while the lines are still inputs (R221, decision D13). -/
def initEvents : List Event :=
  [.setup] ++ drive .dat false ++ drive .clk false ++
    allChannels.flatMap (fun k => drive (.sel k) selInactive) ++ allLines.map .modeOut

/-- INIT performs its events itself, sets INIT_DONE and responds (R221). -/
def execInit (s : State) : Host.Outcome State Fault Refusal :=
  .next (unlessFaulted s fun s => respond .ok 0 (setInitDone (performAll s initEvents)))

/-- RDSTAT: STATVIEW, with no FAULT check (R222). -/
def execRdstat (s : State) : Host.Outcome State Fault Refusal :=
  .next (respond .ok (statView bright s.fault s.initDone) s)

end Sys2Proof.Machine
end

