-- ==== Sys2Proof/Machine/Operands.lean ====
section
/-! DEFINITION. The operand forms and their checks (30_encoding R73, R74; 20_memory R50; 60_exceptions R242). -/

namespace Sys2Proof.Machine

/-- The channel index c = CH - 1 of a channel number 1 to 4; `none` for every other CH (R73). -/
def channelIndex (ch : Byte) : Option ChanIdx :=
  if h : 1 ≤ ch.toNat ∧ ch.toNat ≤ numChannels then
    some ⟨ch.toNat - 1, by have := h.2; unfold numChannels at this; omega⟩
  else none

/-- Whether IX is an acceptable pixel count (R74, R100). -/
def countFits (n : Byte) : Bool := decide (n.toNat ≤ maxPixels)

/-- Where a (channel number, index) operand pair leads: an existing pixel, or the first error in the order of R242. -/
inductive Located where
  | error (e : Status)
  | at (c : ChanIdx) (p : Pixel)
  deriving DecidableEq, Repr

/-- The checks SETPX and RDPX share, in order: InvalidChannel, ChannelNotConfigured, IndexOutOfRange (R242, R50). -/
def locate (s : State) (ch ix : Byte) : Located :=
  match channelIndex ch with
  | none => .error .invalidChannel
  | some c =>
    match chanAt s.chan c with
    | none => .error .channelNotConfigured
    | some _ =>
      match pixRead s c ix.toNat with
      | none => .error .indexOutOfRange
      | some p => .at c p

end Sys2Proof.Machine
end

