-- ==== Sys2Proof/Machine/Device.lean ====
section
/-! DEFINITION. The channel storage commands CFG, SETPX, RDPX and RDCFG (40_device_model R100 to R103). None drives a
line, and none reads INIT_DONE (R104). -/

namespace Sys2Proof.Machine

/-- CFG (R100): InvalidChannel, then TooManyPixels, then the whole record is replaced. -/
def execCfg (ch n : Byte) (gm : Bool) (s : State) : Host.Outcome State Fault Refusal :=
  .next (unlessFaulted s fun s =>
    match channelIndex ch with
    | none => raise .invalidChannel s
    | some c =>
      if countFits n then
        respond .ok 0 (setChan s c (some (freshChannel n.toNat gm)))
      else raise .tooManyPixels s)

/-- SETPX (R101): the stored value is raw, the fields unchanged (R75). -/
def execSetpx (ch i r g b : Byte) (s : State) : Host.Outcome State Fault Refusal :=
  .next (unlessFaulted s fun s =>
    match locate s ch i with
    | .error e => raise e s
    | .at c _ => respond .ok 0 (pixWrite s c i.toNat ⟨r, g, b⟩))

/-- RDPX (R102): DATA is PIXVIEW of the pixel. -/
def execRdpx (ch i : Byte) (s : State) : Host.Outcome State Fault Refusal :=
  .next (unlessFaulted s fun s =>
    match locate s ch i with
    | .error e => raise e s
    | .at _ p => respond .ok (pixView p) s)

/-- RDCFG (R103): DATA is CFGVIEW; an ABSENT channel is no error. -/
def execRdcfg (ch : Byte) (s : State) : Host.Outcome State Fault Refusal :=
  .next (unlessFaulted s fun s =>
    match channelIndex ch with
    | none => raise .invalidChannel s
    | some c => respond .ok (cfgView (chanAt s.chan c)) s)

end Sys2Proof.Machine
end

