-- ==== Sys2Proof/Machine/Selector.lean ====
section
/-! DEFINITION. The channel multiplexer: pure functions to lists of select-line writes (42_channel_selector R171, R174). -/

namespace Sys2Proof.Machine

/-- select, choose one channel: every select line is written once, SEL0 first (R171). -/
def select (c : ChanIdx) : List Event :=
  allChannels.flatMap (fun k => drive (.sel k) (if k = c then selActive else selInactive))

/-- deselect, release a channel after its frame, when DESELECT_AFTER_FRAME = 1 (R174). -/
def deselect (P : Params) (c : ChanIdx) : List Event :=
  if P.deselectAfterFrame then drive (.sel c) selInactive else []

end Sys2Proof.Machine
end

