-- ==== Sys2Proof/Machine/Show.lean ====
section
/-! DEFINITION. SHOW: it composes the selector and the framer over the channel storage (43_show R190 to R194). -/

namespace Sys2Proof.Machine

/-- What one channel contributes to a SHOW: nothing if ABSENT (R192). -/
def channelEvents (P : Params) (c : ChanIdx) : Option ChannelCfg → List Event
  | none => []
  | some cfg => select c ++ frame P cfg ++ deselect P c

/-- showEvents(CHAN[0..3]): the configured channels in ascending order (R192). -/
def showEvents (P : Params) (chan : Vector (Option ChannelCfg) 4) : List Event :=
  allChannels.flatMap (fun c => channelEvents P c (chanAt chan c))

/-- SHOW (R190, R191): the list is computed from the storage as it is now (R60); the sequencer drives it, one event a
step, and gives the response (R34, R194). -/
def execShowCmd (s : State) : Host.Outcome State Fault Refusal :=
  .next (unlessFaulted s fun s =>
    if s.initDone then startShow (showEvents Config.params s.chan) s
    else raise .notInitialized (setFault s))

end Sys2Proof.Machine
end

