-- ==== Sys2Proof/Syntax.lean ====
section
/-! DEFINITION. The eight commands of spec/opcode_table.json (30_encoding R77), with their operands as the fields of
R71 give them: used as read, unsigned, not scaled (R73 to R76). -/

namespace Sys2Proof

/-- One constructor per row of the opcode table (R77). -/
inductive Instr where
  /-- NOP (R220). -/
  | nop
  /-- INIT (R221). -/
  | init
  /-- CFG: channel number, pixel count, gamma flag (R100). -/
  | cfg (ch n : Byte) (gm : Bool)
  /-- SETPX: channel number, pixel index, red, green, blue (R101). -/
  | setpx (ch i r g b : Byte)
  /-- SHOW (R190). -/
  | showCmd
  /-- RDPX: channel number, pixel index (R102). -/
  | rdpx (ch i : Byte)
  /-- RDCFG: channel number (R103). -/
  | rdcfg (ch : Byte)
  /-- RDSTAT (R222). -/
  | rdstat
  deriving DecidableEq, Repr

end Sys2Proof
end

