-- ==== Sys2Proof/Machine/Dispatch.lean ====
section
/-! DEFINITION. The meaning of a decoded command: one arm per constructor (60_exceptions R242). -/

namespace Sys2Proof.Machine

def exec (i : Instr) (s : State) : Host.Outcome State Fault Refusal :=
  match i with
  | .nop => Sys2Proof.Machine.execNop s
  | .init => Sys2Proof.Machine.execInit s
  | .cfg ch n gm => Sys2Proof.Machine.execCfg ch n gm s
  | .setpx ch ix r g b => Sys2Proof.Machine.execSetpx ch ix r g b s
  | .showCmd => Sys2Proof.Machine.execShowCmd s
  | .rdpx ch ix => Sys2Proof.Machine.execRdpx ch ix s
  | .rdcfg ch => Sys2Proof.Machine.execRdcfg ch s
  | .rdstat => Sys2Proof.Machine.execRdstat s

end Sys2Proof.Machine
end

