-- ==== Sys2Proof/WellFormed.lean ====
section
/-! DEFINITION. What may be written down. A command whose fields have their widths is well formed: a channel number of
200 encodes, decodes, and is refused when it executes (30_encoding R73, R74, test vectors T1). What can be ill formed
is a line the host writes with integer operands, before the binding maps them onto fields (R82, R83, R85). -/

namespace Sys2Proof

/-- Every command is well formed: the types of the fields are the widths of R71, and R73 to R76 give every value of a
field a meaning. One arm per constructor, so that a command added later must decide. -/
def Instr.wf : Instr → Bool
  | .nop => true
  | .init => true
  | .cfg _ _ _ => true
  | .setpx _ _ _ _ _ => true
  | .showCmd => true
  | .rdpx _ _ => true
  | .rdcfg _ => true
  | .rdstat => true

/-- One line of assembly, or one call of the API, with its integer operands (R82), the pseudo-commands
`CFG ch, n` and `CLRPX ch, idx` included (R85). -/
inductive AsmLine where
  | nop
  | init
  | cfg (ch n gm : Int)
  | cfgNoGamma (ch n : Int)
  | setpx (ch idx r g b : Int)
  | clrpx (ch idx : Int)
  | showCmd
  | rdpx (ch idx : Int)
  | rdcfg (ch : Int)
  | rdstat
  deriving DecidableEq, Repr

/-- A line the host binding sends: a negative count or index is refused by the binding and never sent (R83), and the
gamma operand is 0 or 1 (R82). -/
def AsmLine.wf : AsmLine → Bool
  | .nop => true
  | .init => true
  | .cfg _ n gm => decide (0 ≤ n) && (decide (gm = 0) || decide (gm = 1))
  | .cfgNoGamma _ n => decide (0 ≤ n)
  | .setpx _ idx _ _ _ => decide (0 ≤ idx)
  | .clrpx _ idx => decide (0 ≤ idx)
  | .showCmd => true
  | .rdpx _ idx => decide (0 ≤ idx)
  | .rdcfg _ => true
  | .rdstat => true

end Sys2Proof
end

