-- ==== Sys2Proof/Decode.lean ====
section
/-! DEFINITION. The decoder of 30_encoding R80, total on every 64-bit word, rejecting by name; the encoder, written
from the field table R71; and the opcode table with its masks (R77, spec/opcode_table.json). -/

namespace Sys2Proof

/-! ## The fields of a command word (R71) -/

/-- OP, bits [63:56]. -/
def opField (w : Word) : Byte := w.extractLsb' 56 8
/-- CH, bits [55:48]. -/
def chField (w : Word) : Byte := w.extractLsb' 48 8
/-- IX, bits [47:40]. -/
def ixField (w : Word) : Byte := w.extractLsb' 40 8
/-- RSV1, bits [39:33]. -/
def rsv1Field (w : Word) : BitVec 7 := w.extractLsb' 33 7
/-- GM, bit [32]. -/
def gmField (w : Word) : Bool := w.getLsbD 32
/-- RSV2, bits [31:24]. -/
def rsv2Field (w : Word) : Byte := w.extractLsb' 24 8
/-- R, bits [23:16]. -/
def rField (w : Word) : Byte := w.extractLsb' 16 8
/-- G, bits [15:8]. -/
def gField (w : Word) : Byte := w.extractLsb' 8 8
/-- B, bits [7:0]. -/
def bField (w : Word) : Byte := w.extractLsb' 0 8

/-! ## Decoding -/

/-- Why a word spells no command. The block answers both alike (R78, R79): the two names are the model's. -/
inductive Illegal where
  /-- OP is 0x08 to 0xFF (R78). -/
  | reservedOpcode
  /-- A bit the command's format does not use is 1 (R79). -/
  | unusedBitSet
  deriving DecidableEq, Repr

/-- What a word decodes to: exactly one of the eight commands, or Illegal (R80, R81). -/
inductive Decoded where
  | command (i : Instr)
  | illegal (why : Illegal)
  deriving DecidableEq, Repr

/-- The command, provided the bits its format does not use are all 0 (R79). -/
def ifUnusedZero (unusedZero : Bool) (i : Instr) : Decoded :=
  if unusedZero then .command i else .illegal .unusedBitSet

/-- The decoder (R80). The tests of unused bits are those of its pseudocode. -/
def decode (w : Word) : Decoded :=
  if opField w = 0x00#8 then ifUnusedZero (w.extractLsb' 0 56 == 0#56) .nop
  else if opField w = 0x01#8 then ifUnusedZero (w.extractLsb' 0 56 == 0#56) .init
  else if opField w = 0x02#8 then
    ifUnusedZero (rsv1Field w == 0#7 && w.extractLsb' 0 32 == 0#32) (.cfg (chField w) (ixField w) (gmField w))
  else if opField w = 0x03#8 then
    ifUnusedZero (w.extractLsb' 24 16 == 0#16)
      (.setpx (chField w) (ixField w) (rField w) (gField w) (bField w))
  else if opField w = 0x04#8 then ifUnusedZero (w.extractLsb' 0 56 == 0#56) .showCmd
  else if opField w = 0x05#8 then
    ifUnusedZero (w.extractLsb' 0 40 == 0#40) (.rdpx (chField w) (ixField w))
  else if opField w = 0x06#8 then ifUnusedZero (w.extractLsb' 0 48 == 0#48) (.rdcfg (chField w))
  else if opField w = 0x07#8 then ifUnusedZero (w.extractLsb' 0 56 == 0#56) .rdstat
  else .illegal .reservedOpcode

/-- The command as an option: `none` where the word is Illegal. -/
def Decoded.command? : Decoded → Option Instr
  | .command i => some i
  | .illegal _ => none

/-- The command of the word whose bits are `w`, numbered as the opcode table numbers them: one 64-bit word, bit 0
least significant; bits above `nbits` are 0. -/
def decodeTableWord (nbits w : Nat) : Option Instr :=
  (decode (BitVec.ofNat 64 (w % 2 ^ nbits))).command?

/-! ## Encoding -/

/-- A command word from its fields, RSV1 and RSV2 zero (R71). -/
def packFields (op ch ix : Byte) (gm : Bool) (r g b : Byte) : Word :=
  op.setWidth 64 <<< 56 ||| ch.setWidth 64 <<< 48 ||| ix.setWidth 64 <<< 40 |||
    (BitVec.ofBool gm).setWidth 64 <<< 32 ||| r.setWidth 64 <<< 16 ||| g.setWidth 64 <<< 8 ||| b.setWidth 64

/-- The word of a command: the fields its format uses, every other bit 0 (R72). -/
def encode : Instr → Word
  | .nop => packFields 0x00 0 0 false 0 0 0
  | .init => packFields 0x01 0 0 false 0 0 0
  | .cfg ch n gm => packFields 0x02 ch n gm 0 0 0
  | .setpx ch i r g b => packFields 0x03 ch i false r g b
  | .showCmd => packFields 0x04 0 0 false 0 0 0
  | .rdpx ch i => packFields 0x05 ch i false 0 0 0
  | .rdcfg ch => packFields 0x06 ch 0 false 0 0 0
  | .rdstat => packFields 0x07 0 0 false 0 0 0

/-! ## The opcode table -/

/-- A row of spec/opcode_table.json: its name, the fixed bits and their values (R77). -/
structure OpcodeRow where
  mnemonic : String
  mask : Word
  fixed : Word
  deriving DecidableEq, Repr

/-- The eight rows, with mask and match as spec/opcode_table.json gives them (R77). -/
def opcodeTable : List OpcodeRow :=
  [⟨"NOP", 0xFFFFFFFFFFFFFFFF, 0x0000000000000000⟩,
   ⟨"INIT", 0xFFFFFFFFFFFFFFFF, 0x0100000000000000⟩,
   ⟨"CFG", 0xFF0000FEFFFFFFFF, 0x0200000000000000⟩,
   ⟨"SETPX", 0xFF0000FFFF000000, 0x0300000000000000⟩,
   ⟨"SHOW", 0xFFFFFFFFFFFFFFFF, 0x0400000000000000⟩,
   ⟨"RDPX", 0xFF0000FFFFFFFFFF, 0x0500000000000000⟩,
   ⟨"RDCFG", 0xFF00FFFFFFFFFFFF, 0x0600000000000000⟩,
   ⟨"RDSTAT", 0xFFFFFFFFFFFFFFFF, 0x0700000000000000⟩]

/-- A word selects a row exactly when `(word & mask) == match` (R77). -/
def OpcodeRow.selects (row : OpcodeRow) (w : Word) : Bool := w &&& row.mask == row.fixed

/-- The mnemonic of a command (R77). -/
def Instr.mnemonic : Instr → String
  | .nop => "NOP"
  | .init => "INIT"
  | .cfg _ _ _ => "CFG"
  | .setpx _ _ _ _ _ => "SETPX"
  | .showCmd => "SHOW"
  | .rdpx _ _ => "RDPX"
  | .rdcfg _ => "RDCFG"
  | .rdstat => "RDSTAT"

end Sys2Proof
end

