-- ==== Sys2Proof/Machine/Port.lean ====
section
/-! DEFINITION. The command port: what the next step is (10_state R34; 60_exceptions R242, R252; 70_reset_and_hazards
R271, R272, R277). It decides which agent moves, and takes a command word off the inputs. -/

namespace Sys2Proof.Machine

/-- What the next step does: it is done already, or it runs a command on the state the port leaves. -/
inductive Polled where
  | done (s : State)
  | run (i : Instr) (s : State)
  deriving DecidableEq, Repr

/-- Take a command word when the port is free: an Illegal word is answered with IllegalCommand whatever FAULT is, and
changes nothing (R78, R79, R242). -/
def takeCommand (w : Word) (s : State) : Polled :=
  match decode w with
  | .command i => .run i s
  | .illegal _ => .done (raise .illegalCommand s)

/-- The next step. Reset comes first, whatever else happens (R252, R271). Otherwise, while BUSY the sequencer drives
one event and an offered command is held (R34, R277). Otherwise a command is taken, and with none offered the block
does nothing (R272). -/
def poll (s : State) : Polled :=
  match s.inputs with
  | [] => .done (sequencerStep s)
  | .idle :: rest => .done (sequencerStep { s with inputs := rest })
  | .reset _ :: rest => .done (resetBlock { s with inputs := rest })
  | .command w :: rest =>
    if busy s then .done (sequencerStep s) else takeCommand w { s with inputs := rest }

/-- The state with a command word placed where the next step takes it: offered first, on a port that is free
(log entry 10). -/
def offerFirst (w : Word) (s : State) : State :=
  { s with inputs := .command w :: s.inputs, pending := [] }

end Sys2Proof.Machine
end

