-- ==== Sys2Proof/Machine/Step.lean ====
section
/-! DEFINITION. One step of the machine: what the port decides, and the meaning of the command it takes. -/

namespace Sys2Proof.Machine

/-- One step: a reset, a sequencer step, a command, or nothing (R34, R60, R271, R272). -/
def step (s : State) : Host.Outcome State Fault Refusal :=
  match poll s with
  | .done t => .next t
  | .run i t => exec i t

/-- `s` with the word whose bits are `w` (bits above `nbits` zero) as the command the very next step takes. -/
def State.withFetchWord (s : State) (nbits w : Nat) : State :=
  offerFirst (BitVec.ofNat 64 (w % 2 ^ nbits)) s

end Sys2Proof.Machine
end

