-- ==== Sys2Proof/Machine/Assembler.lean ====
section
/-! DEFINITION. The host's side of the encoding, outside the block: the binding that maps integer operands onto fields
(30_encoding R75, R83), the pseudo-commands (R85), and the assembly syntax of a line (R82). -/

namespace Sys2Proof.Machine

/-! ## The host binding -/

/-- r, g and b are sent as `v & 0xFF`, the two's-complement low 8 bits (R75, R83). -/
def sendColour (v : Int) : Byte := BitVec.ofInt 8 v

/-- ch is sent as it is when 0 <= ch <= 255, and as 0 otherwise (R83). -/
def sendChannel (v : Int) : Byte := if 0 ≤ v ∧ v ≤ 255 then BitVec.ofInt 8 v else 0

/-- A count or an index is sent as it is up to 255, and as 255 above; a negative one is refused (R83). -/
def sendIx (v : Int) : Option Byte :=
  if v < 0 then none else if v ≤ 255 then some (BitVec.ofInt 8 v) else some 255

/-- The gamma operand is 0 or 1 (R82). Any other is refused: DESIGN CHOICE, safe (log entry 11). -/
def sendGamma (v : Int) : Option Bool := if v = 0 then some false else if v = 1 then some true else none

/-- The command the binding sends for a line, or `none` where it refuses (R83, R85). -/
def bindLine : AsmLine → Option Instr
  | .nop => some .nop
  | .init => some .init
  | .cfg ch n gm =>
    match sendIx n, sendGamma gm with
    | some n, some gm => some (.cfg (sendChannel ch) n gm)
    | _, _ => none
  | .cfgNoGamma ch n => (sendIx n).map fun n => .cfg (sendChannel ch) n false
  | .setpx ch idx r g b =>
    (sendIx idx).map fun i => .setpx (sendChannel ch) i (sendColour r) (sendColour g) (sendColour b)
  | .clrpx ch idx => (sendIx idx).map fun i => .setpx (sendChannel ch) i 0 0 0
  | .showCmd => some .showCmd
  | .rdpx ch idx => (sendIx idx).map fun i => .rdpx (sendChannel ch) i
  | .rdcfg ch => some (.rdcfg (sendChannel ch))
  | .rdstat => some .rdstat

/-- The word the host sends for a line (R82, R83). -/
def assemble (a : AsmLine) : Option Word := (bindLine a).map encode

/-! ## The text of a line

One command per line: a mnemonic, then operands separated by commas; `;` starts a comment; mnemonics are
case-insensitive; an operand is a decimal or a `0x` hexadecimal integer (R82). Spaces and tabs around the parts, a
leading minus sign, and lines without a command are DESIGN CHOICE, safe (log entry 11). -/

/-- What a line of text holds. -/
inductive ParsedLine where
  | empty
  | command (a : AsmLine)
  | syntaxError
  deriving DecidableEq, Repr

def isBlank (c : Char) : Bool := c == ' ' || c == '\t'

def trimLeft : List Char → List Char := List.dropWhile isBlank

def trim (cs : List Char) : List Char := (trimLeft (trimLeft cs).reverse).reverse

/-- The text before the comment. -/
def stripComment : List Char → List Char := List.takeWhile (· != ';')

/-- The parts between commas: always at least one. -/
def splitCommas : List Char → List (List Char)
  | [] => [[]]
  | c :: cs =>
    match splitCommas cs with
    | [] => [[c]]
    | part :: parts => if c == ',' then [] :: part :: parts else (c :: part) :: parts

/-- The value of a digit in a base up to 16. -/
def digitValue (base : Nat) (c : Char) : Option Nat :=
  let n := c.toNat
  let v :=
    if 48 ≤ n ∧ n ≤ 57 then some (n - 48)
    else if 65 ≤ n ∧ n ≤ 70 then some (n - 55)
    else if 97 ≤ n ∧ n ≤ 102 then some (n - 87)
    else none
  v.filter (· < base)

/-- The value of a run of digits after what was read so far. -/
def digitsFrom (base acc : Nat) : List Char → Option Nat
  | [] => some acc
  | c :: cs =>
    match digitValue base c with
    | none => none
    | some d => digitsFrom base (acc * base + d) cs

/-- A number without a sign: `0x` and hexadecimal digits, or decimal digits. -/
def parseNat : List Char → Option Nat
  | [] => none
  | ['0', 'x'] => none
  | '0' :: 'x' :: cs => digitsFrom 16 0 cs
  | cs => digitsFrom 10 0 cs

/-- An operand. -/
def parseInt : List Char → Option Int
  | '-' :: cs => (parseNat cs).map fun n => -(n : Int)
  | cs => (parseNat cs).map fun n => (n : Int)

/-- Every operand of a list, or `none` if one is no integer. -/
def parseInts : List (List Char) → Option (List Int)
  | [] => some []
  | p :: ps =>
    match parseInt (trim p), parseInts ps with
    | some v, some vs => some (v :: vs)
    | _, _ => none

/-- The command of a mnemonic, in capitals, and its operands (R82, R85). -/
def lineOf (mnemonic : String) (operands : List Int) : Option AsmLine :=
  match operands with
  | [] =>
    if mnemonic = "NOP" then some .nop
    else if mnemonic = "INIT" then some .init
    else if mnemonic = "SHOW" then some .showCmd
    else if mnemonic = "RDSTAT" then some .rdstat
    else none
  | [ch] => if mnemonic = "RDCFG" then some (.rdcfg ch) else none
  | [ch, x] =>
    if mnemonic = "CFG" then some (.cfgNoGamma ch x)
    else if mnemonic = "RDPX" then some (.rdpx ch x)
    else if mnemonic = "CLRPX" then some (.clrpx ch x)
    else none
  | [ch, n, gm] => if mnemonic = "CFG" then some (.cfg ch n gm) else none
  | [ch, idx, r, g, b] => if mnemonic = "SETPX" then some (.setpx ch idx r g b) else none
  | _ => none

/-- A line of text (R82). -/
def parseLine (text : List Char) : ParsedLine :=
  let body := trim (stripComment text)
  let mnemonic := body.takeWhile (fun c => !isBlank c)
  let rest := trim (body.dropWhile (fun c => !isBlank c))
  if body.isEmpty then .empty
  else
    match (if rest.isEmpty then some [] else parseInts (splitCommas rest)) with
    | none => .syntaxError
    | some operands =>
      match lineOf (String.ofList (mnemonic.map Char.toUpper)) operands with
      | none => .syntaxError
      | some a => .command a

end Sys2Proof.Machine
end

