-- ==== Sys2Proof/Machine/Observe.lean ====
section
/-! DEFINITION. What is observed of a list of line events: the clocked bits (41_frame_encoder R150), the bits a frame
must give (R151), the waveform of a line (10_state R33), and what a channel receives (42_channel_selector R175). -/

namespace Sys2Proof.Machine

/-- The clocked bit stream of a list performed from a state whose DAT latch is `d`: the DAT level at each
`Write(CLK, 1)` (R150). -/
def bits (d : Bool) : List Event → List Bool
  | [] => []
  | .write .dat v :: es => bits v es
  | .write .clk true :: es => d :: bits d es
  | _ :: es => bits d es

/-- The same stream sampled at `Write(CLK, 0)`, the falling edge (R152). -/
def bitsAtFall (d : Bool) : List Event → List Bool
  | [] => []
  | .write .dat v :: es => bitsAtFall v es
  | .write .clk false :: es => d :: bitsAtFall d es
  | _ :: es => bitsAtFall d es

/-- Whether no `Write(DAT, _)` lies between a `Write(CLK, 1)` and the next `Write(CLK, 0)` (R152). `high` says whether
a `Write(CLK, 1)` stands open at the start. -/
def datStable (high : Bool) : List Event → Bool
  | [] => true
  | .write .dat _ :: es => !high && datStable high es
  | .write .clk v :: es => datStable v es
  | _ :: es => datStable high es

/-- The number of clock pulses: of `Write(CLK, 1)` events (R153). -/
def pulseCount (es : List Event) : Nat := es.count (.write .clk true)

/-- k zero bits (R14). -/
def zeros (k : Nat) : List Bool := List.replicate k false

/-- The bits of one pixel's four bytes (R151). -/
def pixelBits (P : Params) (gm : Bool) (p : Pixel) : List Bool :=
  bitsMSB8 (hdr P) ++ bitsMSB8 (gc P gm p.b) ++ bitsMSB8 (gc P gm p.g) ++ bitsMSB8 (gc P gm p.r)

/-- frameBits(cfg): the bits a channel's frame clocks (R151). -/
def frameBits (P : Params) (cfg : ChannelCfg) : List Bool :=
  zeros sofPulses ++ cfg.pix.flatMap (pixelBits P cfg.gamma) ++ zeros eofPulses

/-- The bit stream channel index c receives while a list is performed from given lines: the clocked bits of the
`Write(CLK, 1)` events at which PIN[SELc] = 0 (R175). -/
def channelStream (c : ChanIdx) (ls : LineState) : List Event → List Bool
  | [] => []
  | e :: es =>
    (if e = .write .clk true ∧ ls.pin (.sel c) = .level selActive then [ls.lat.get .dat] else []) ++
      channelStream c (ls.apply e) es

/-- The waveform of a line: PIN[L] after each event, from given lines (R33). -/
def waveform (l : Line) (ls : LineState) : List Event → List PinLevel
  | [] => []
  | e :: es => (ls.apply e).pin l :: waveform l (ls.apply e) es

/-- The lines as the trace alone gives them: every event of TR applied from power-on (R33, R35). -/
def replay (tr : List Event) : LineState := powerOnLines.applyAll tr

/-- What channel index c has received since power-on (R175). -/
def received (c : ChanIdx) (s : State) : List Bool := channelStream c powerOnLines s.tr

end Sys2Proof.Machine
end

