-- ==== Sys2Proof/Safety.lean ====
section
/-! DEFINITION. The predicates claims are stated in: the launch premises of the spec (70_reset_and_hazards R274), a
well-booted sequence of inputs (44_control R223), and the invariants of the machine. -/

namespace Sys2Proof

open Sys2Proof.Machine

/-- Clean(S): FAULT = 0 and PENDING = [] (R274). -/
def Clean (s : State) : Prop := s.fault = false ∧ s.pending = []

/-- The select levels between SHOWs: all inactive, or, when nothing is released after a frame, those of one selected
channel (R197, R274). -/
def SelectsSettled (P : Params) (lat : PerLine Bool) : Prop :=
  (∀ k, lat.get (.sel k) = selInactive) ∨
    (P.deselectAfterFrame = false ∧
      ∃ c, ∀ k, lat.get (.sel k) = if k = c then selActive else selInactive)

/-- The lines as `Booted` wants them (R274). -/
def LinesSettled (P : Params) (ls : LineState) : Prop :=
  (∀ l, ls.mode.get l = .output) ∧ ls.lat.get .dat = false ∧ ls.lat.get .clk = false ∧
    SelectsSettled P ls.lat

/-- Booted(S) (R274). -/
def Booted (P : Params) (s : State) : Prop := Clean s ∧ s.initDone = true ∧ LinesSettled P s.lines

/-- Every SHOW of the inputs follows an INIT, since the last reset; `inited` says whether INIT_DONE is 1 before them
(R223). -/
def wellBooted (inited : Bool) : List HostInput → Bool
  | [] => true
  | .idle :: rest => wellBooted inited rest
  | .reset _ :: rest => wellBooted false rest
  | .command w :: rest =>
    match decode w with
    | .command .showCmd => inited && wellBooted inited rest
    | .command .init => wellBooted true rest
    | _ => wellBooted inited rest

/-- No reset stands next at the inputs, and nothing is wasted on an idle step: a command is offered, or nothing more
comes. -/
def noResetNext (inputs : List HostInput) : Prop := inputs = [] ∨ ∃ w rest, inputs = .command w :: rest

/-! ## Invariants -/

/-- Every channel holds at most MAX_PIXELS pixels (R22). -/
def ChannelsBounded (s : State) : Prop := ∀ (c : ChanIdx) cfg, chanAt s.chan c = some cfg → cfg.pix.length ≤ maxPixels

/-- FAULT = 1 means that INIT was never done since the last reset (R28, R191, R243). -/
def FaultExcludesInit (s : State) : Prop := s.fault = true → s.initDone = false

/-- Every event of a list is a write. -/
def AllWrites (es : List Event) : Prop := ∀ e ∈ es, ∃ l v, e = .write l v

/-- Before INIT every line is an input and nothing is pending. After it every line is an output, only writes are
pending, and driving what is pending leaves the lines settled (R32, R197, R274). -/
def LinesFollowInit (s : State) : Prop :=
  (s.initDone = false → (∀ l, s.lines.mode.get l = .input) ∧ s.pending = []) ∧
    (s.initDone = true →
      (∀ l, s.lines.mode.get l = .output) ∧ AllWrites s.pending ∧
        LinesSettled Config.params (s.lines.applyAll s.pending))

/-- The pins are what the trace alone says (R33, R35): MODE is that of the replayed trace, and so is LAT wherever the
pin is driven. -/
def PinsFollowTrace (s : State) : Prop :=
  (∀ l, (replay s.tr).mode.get l = s.lines.mode.get l) ∧
    (∀ l, s.lines.mode.get l = .output → (replay s.tr).lat.get l = s.lines.lat.get l) ∧ AllWrites s.pending

/-- The pins select channel c and no other (R173). -/
def Selected (ls : LineState) (c : ChanIdx) : Prop :=
  ∀ k, ls.pin (.sel k) = .level (if k = c then selActive else selInactive)

/-- At every clock pulse of a list, driven from given lines, exactly one channel is selected and CLK rises from 0
(R155, R173). -/
def PulsesSafe (ls : LineState) (es : List Event) : Prop :=
  ∀ pre post, es = pre ++ .write .clk true :: post →
    (∃ c, Selected (ls.applyAll pre) c) ∧ (ls.applyAll pre).pin .clk = .level false

/-! ## Terms of claims -/

/-- The lists that concatenations of the framer's operations build (41_frame_encoder R152). `drive` alone is left out: it
is the step the others are made of, and a bare `drive(DAT, v)` between the two writes of a pulse is no operation of
that file. -/
inductive FramerList (P : Params) : List Event → Prop where
  | nil : FramerList P []
  | pulse : FramerList P pulse
  | shiftBit (v : Bool) : FramerList P (shiftBit v)
  | writeByte (x : Byte) : FramerList P (writeByte x)
  | pixelOut (p : Pixel) (gm : Bool) : FramerList P (pixelOut P p gm)
  | sof : FramerList P sof
  | eof : FramerList P eof
  | frame (cfg : ChannelCfg) : FramerList P (frame P cfg)
  | append {es fs : List Event} : FramerList P es → FramerList P fs → FramerList P (es ++ fs)

/-- The commands of 40_device_model. -/
def Instr.isStorage : Instr → Bool
  | .cfg _ _ _ => true
  | .setpx _ _ _ _ _ => true
  | .rdpx _ _ => true
  | .rdcfg _ => true
  | .nop => false
  | .init => false
  | .showCmd => false
  | .rdstat => false

/-- The read commands, RDPX, RDCFG and RDSTAT (20_memory R59). -/
def Instr.isRead : Instr → Bool
  | .rdpx _ _ => true
  | .rdcfg _ => true
  | .rdstat => true
  | .nop => false
  | .init => false
  | .cfg _ _ _ => false
  | .setpx _ _ _ _ _ => false
  | .showCmd => false

/-- Whether a bit that the format of the word's own opcode does not use is 1 (30_encoding R72, R79): the fields a
command does not use, and RSV1 and RSV2 always. -/
def unusedBitSet (w : Word) : Prop :=
  (opField w).toNat < 8 ∧
    (rsv1Field w ≠ 0 ∨ rsv2Field w ≠ 0 ∨
      (opField w ≠ 0x02 ∧ gmField w = true) ∨
      (opField w ≠ 0x02 ∧ opField w ≠ 0x03 ∧ opField w ≠ 0x05 ∧ ixField w ≠ 0) ∨
      (opField w ≠ 0x02 ∧ opField w ≠ 0x03 ∧ opField w ≠ 0x05 ∧ opField w ≠ 0x06 ∧ chField w ≠ 0) ∨
      (opField w ≠ 0x03 ∧ (rField w ≠ 0 ∨ gField w ≠ 0 ∨ bField w ≠ 0)))

/-- The command the next step takes: a word offered on a free port, if it decodes. -/
def takenNext (s : State) : Option Instr :=
  match s.inputs with
  | .command w :: _ => if busy s then none else (decode w).command?
  | _ => none

/-- Whether the next step is a reset. -/
def resetNext (s : State) : Bool :=
  match s.inputs with
  | .reset _ :: _ => true
  | _ => false

end Sys2Proof
end

