-- ==== Sys2Proof/Certificates/Slice0/Obligations.lean ====
section
/-! DEFINITION. The statements for the provers, from the numbered rules of spec/. Each docstring names the rule.
What the host offers stands in the field `inputs` and what it was answered in `responses`: the form of both is the
model's (log entries 5 and 6). -/

open Sys2Proof Sys2Proof.Machine

/-! ## Encoding (30_encoding) -/

/-- R86, the worked encodings, row by row: the assembler gives the word, the word decodes to the command, and the two
Illegal words are Illegal. -/
def Obligations.WorkedEncodingsAgree : Prop :=
  assemble .nop = some 0x0000000000000000 ∧ decode 0x0000000000000000 = .command .nop ∧
  assemble .init = some 0x0100000000000000 ∧ decode 0x0100000000000000 = .command .init ∧
  assemble (.cfg 2 1 0) = some 0x0202010000000000 ∧ decode 0x0202010000000000 = .command (.cfg 2 1 false) ∧
  assemble (.cfg 1 16 1) = some 0x0201100100000000 ∧ decode 0x0201100100000000 = .command (.cfg 1 16 true) ∧
  assemble (.setpx 1 0 255 0 0) = some 0x0301000000FF0000 ∧
  decode 0x0301000000FF0000 = .command (.setpx 1 0 255 0 0) ∧
  assemble (.setpx 4 15 0x12 0x34 0x56) = some 0x03040F0000123456 ∧
  decode 0x03040F0000123456 = .command (.setpx 4 15 0x12 0x34 0x56) ∧
  assemble .showCmd = some 0x0400000000000000 ∧ decode 0x0400000000000000 = .command .showCmd ∧
  assemble (.rdpx 2 0) = some 0x0502000000000000 ∧ decode 0x0502000000000000 = .command (.rdpx 2 0) ∧
  assemble (.rdcfg 3) = some 0x0603000000000000 ∧ decode 0x0603000000000000 = .command (.rdcfg 3) ∧
  assemble .rdstat = some 0x0700000000000000 ∧ decode 0x0700000000000000 = .command .rdstat ∧
  decode 0x0800000000000000 = .illegal .reservedOpcode ∧
  decode 0x0401000000000000 = .illegal .unusedBitSet

/-- Every command decodes from its own word, with every operand at every value (R71, R72, R80). -/
def Obligations.DecodeOfEncode : Prop := ∀ i : Instr, decode (encode i) = .command i

/-- A word that decodes is the encoding of what it decodes to: each command has one word (R71, R72, R80). -/
def Obligations.EncodeOfDecode : Prop := ∀ (w : Word) (i : Instr), decode w = .command i → encode i = w

/-- At most one row of the opcode table matches a word, and the word decodes to a command of that row; a word that no row
matches is Illegal (R77, R80). -/
def Obligations.TableDecidesDecoding : Prop :=
  ∀ w : Word,
    (∀ r ∈ opcodeTable, ∀ r' ∈ opcodeTable, r.selects w = true → r'.selects w = true → r = r') ∧
    (∀ r ∈ opcodeTable, r.selects w = true ↔ ∃ i, decode w = .command i ∧ i.mnemonic = r.mnemonic) ∧
    ((∀ r ∈ opcodeTable, r.selects w = false) ↔ ∃ why, decode w = .illegal why)

/-- R78 and R79: a reserved opcode, or a 1 in a bit the format does not use, is answered with IllegalCommand and DATA 0,
and changes nothing, whatever FAULT is. -/
def Obligations.IllegalWordsAnswered : Prop :=
  ∀ (s : State) (w : Word) (rest : List HostInput),
    s.inputs = .command w :: rest → s.pending = [] → (8 ≤ (opField w).toNat ∨ unusedBitSet w) →
      step s = .next { s with inputs := rest, responses := s.responses ++ [⟨.illegalCommand, 0⟩] }

/-- R84: the packed response word has STATUS in [35:32], DATA in [31:0] and 0 above; the STATUS codes are R240's. -/
def Obligations.ResponseWordLayout : Prop :=
  (∀ r : Response, r.pack.extractLsb' 36 28 = 0 ∧ r.pack.extractLsb' 32 4 = r.status.code ∧
    r.pack.extractLsb' 0 32 = r.data) ∧
  Status.code .ok = 0x0 ∧ Status.code .invalidChannel = 0x1 ∧ Status.code .tooManyPixels = 0x2 ∧
  Status.code .channelNotConfigured = 0x3 ∧ Status.code .indexOutOfRange = 0x4 ∧
  Status.code .illegalCommand = 0x5 ∧ Status.code .notInitialized = 0x6 ∧ Status.code .faulted = 0x7

/-- R83: what the host binding sends for an integer, and that an invalid channel stays invalid, a count over 16 stays
over 16, and an index at or above a COUNT of at most 16 stays so. Then each command with operands, and the two
pseudo-commands (R85), which are their expansions. -/
def Obligations.HostBindingKeepsOutcomes : Prop :=
  (∀ v : Int,
    ((sendColour v).toNat : Int) = v % 256 ∧
    (0 ≤ v → v ≤ 255 → ((sendChannel v).toNat : Int) = v) ∧
    ((v < 0 ∨ 255 < v) → sendChannel v = 0) ∧
    (v < 0 → sendIx v = none) ∧
    (0 ≤ v → v ≤ 255 → ∃ x, sendIx v = some x ∧ (x.toNat : Int) = v) ∧
    (255 < v → sendIx v = some 255) ∧
    (channelIndex (sendChannel v) = none ↔ v < 1 ∨ 4 < v) ∧
    (∀ x, sendIx v = some x → 16 < v → 16 < x.toNat) ∧
    (∀ x (count : Nat), sendIx v = some x → count ≤ 16 → (count : Int) ≤ v → count ≤ x.toNat)) ∧
  (∀ ch idx r g b : Int, bindLine (.setpx ch idx r g b) =
    (sendIx idx).map fun x => .setpx (sendChannel ch) x (sendColour r) (sendColour g) (sendColour b)) ∧
  (∀ ch n : Int, ∀ gm : Bool, bindLine (.cfg ch n (if gm then 1 else 0)) =
    (sendIx n).map fun x => .cfg (sendChannel ch) x gm) ∧
  (∀ ch idx : Int, bindLine (.rdpx ch idx) = (sendIx idx).map fun x => .rdpx (sendChannel ch) x) ∧
  (∀ ch : Int, bindLine (.rdcfg ch) = some (.rdcfg (sendChannel ch))) ∧
  (∀ ch n : Int, bindLine (.cfgNoGamma ch n) = bindLine (.cfg ch n 0)) ∧
  ∀ ch idx : Int, bindLine (.clrpx ch idx) = bindLine (.setpx ch idx 0 0 0)

/-! ## The storage commands (40_device_model) -/

/-- R100, CFG: each answer under its condition, in the order of the checks, with the whole next state; and its word. -/
def Obligations.CfgConfiguresChannel : Prop :=
  ∀ (ch n : Byte) (gm : Bool) (s : State),
    (s.fault = true →
      exec (.cfg ch n gm) s = .next { s with responses := s.responses ++ [⟨.faulted, 0⟩] }) ∧
    (s.fault = false → (ch.toNat < 1 ∨ 4 < ch.toNat) →
      exec (.cfg ch n gm) s = .next { s with responses := s.responses ++ [⟨.invalidChannel, 0⟩] }) ∧
    (s.fault = false → 1 ≤ ch.toNat → ch.toNat ≤ 4 → 16 < n.toNat →
      exec (.cfg ch n gm) s = .next { s with responses := s.responses ++ [⟨.tooManyPixels, 0⟩] }) ∧
    (∀ c : ChanIdx, s.fault = false → ch.toNat = c.val + 1 → n.toNat ≤ 16 →
      exec (.cfg ch n gm) s = .next { s with
        chan := s.chan.set c (some ⟨gm, List.replicate n.toNat ⟨0, 0, 0⟩⟩)
        responses := s.responses ++ [⟨.ok, 0⟩] }) ∧
    opField (encode (.cfg ch n gm)) = 0x02 ∧ chField (encode (.cfg ch n gm)) = ch ∧
    ixField (encode (.cfg ch n gm)) = n ∧ gmField (encode (.cfg ch n gm)) = gm ∧
    ¬ unusedBitSet (encode (.cfg ch n gm))

/-- R101, SETPX: each answer under its condition, in the order of the checks, with the whole next state; and its word. -/
def Obligations.SetpxWritesOnePixel : Prop :=
  ∀ (ch ix r g b : Byte) (s : State),
    (s.fault = true →
      exec (.setpx ch ix r g b) s = .next { s with responses := s.responses ++ [⟨.faulted, 0⟩] }) ∧
    (s.fault = false → (ch.toNat < 1 ∨ 4 < ch.toNat) →
      exec (.setpx ch ix r g b) s = .next { s with responses := s.responses ++ [⟨.invalidChannel, 0⟩] }) ∧
    (∀ c : ChanIdx, s.fault = false → ch.toNat = c.val + 1 → chanAt s.chan c = none →
      exec (.setpx ch ix r g b) s =
        .next { s with responses := s.responses ++ [⟨.channelNotConfigured, 0⟩] }) ∧
    (∀ (c : ChanIdx) (cfg : ChannelCfg), s.fault = false → ch.toNat = c.val + 1 → chanAt s.chan c = some cfg →
      cfg.pix.length ≤ ix.toNat →
      exec (.setpx ch ix r g b) s = .next { s with responses := s.responses ++ [⟨.indexOutOfRange, 0⟩] }) ∧
    (∀ (c : ChanIdx) (cfg : ChannelCfg), s.fault = false → ch.toNat = c.val + 1 → chanAt s.chan c = some cfg →
      ix.toNat < cfg.pix.length →
      exec (.setpx ch ix r g b) s = .next { s with
        chan := s.chan.set c (some { cfg with pix := cfg.pix.set ix.toNat ⟨r, g, b⟩ })
        responses := s.responses ++ [⟨.ok, 0⟩] }) ∧
    opField (encode (.setpx ch ix r g b)) = 0x03 ∧ chField (encode (.setpx ch ix r g b)) = ch ∧
    ixField (encode (.setpx ch ix r g b)) = ix ∧ rField (encode (.setpx ch ix r g b)) = r ∧
    gField (encode (.setpx ch ix r g b)) = g ∧ bField (encode (.setpx ch ix r g b)) = b ∧
    ¬ unusedBitSet (encode (.setpx ch ix r g b))

/-- R102, RDPX, with the layout of R25: each answer under its condition; DATA is the pixel, and nothing else changes. -/
def Obligations.RdpxReadsPixel : Prop :=
  ∀ (ch ix : Byte) (s : State),
    (s.fault = true →
      exec (.rdpx ch ix) s = .next { s with responses := s.responses ++ [⟨.faulted, 0⟩] }) ∧
    (s.fault = false → (ch.toNat < 1 ∨ 4 < ch.toNat) →
      exec (.rdpx ch ix) s = .next { s with responses := s.responses ++ [⟨.invalidChannel, 0⟩] }) ∧
    (∀ c : ChanIdx, s.fault = false → ch.toNat = c.val + 1 → chanAt s.chan c = none →
      exec (.rdpx ch ix) s = .next { s with responses := s.responses ++ [⟨.channelNotConfigured, 0⟩] }) ∧
    (∀ (c : ChanIdx) (cfg : ChannelCfg), s.fault = false → ch.toNat = c.val + 1 → chanAt s.chan c = some cfg →
      cfg.pix.length ≤ ix.toNat →
      exec (.rdpx ch ix) s = .next { s with responses := s.responses ++ [⟨.indexOutOfRange, 0⟩] }) ∧
    (∀ (c : ChanIdx) (cfg : ChannelCfg) (p : Pixel), s.fault = false → ch.toNat = c.val + 1 →
      chanAt s.chan c = some cfg → cfg.pix[ix.toNat]? = some p →
      ∃ d : Data, exec (.rdpx ch ix) s = .next { s with responses := s.responses ++ [⟨.ok, d⟩] } ∧
        d.extractLsb' 24 8 = 0#8 ∧ d.extractLsb' 16 8 = p.r ∧ d.extractLsb' 8 8 = p.g ∧ d.extractLsb' 0 8 = p.b) ∧
    opField (encode (.rdpx ch ix)) = 0x05 ∧ chField (encode (.rdpx ch ix)) = ch ∧
    ixField (encode (.rdpx ch ix)) = ix ∧ ¬ unusedBitSet (encode (.rdpx ch ix))

/-- R103, RDCFG, with the layout of R24: each answer under its condition; an ABSENT channel reads 0, a configured one
PRESENT, GAMMA and its COUNT, of at most 16 (the invariant `ChannelsBounded`); nothing else changes. -/
def Obligations.RdcfgReadsView : Prop :=
  ∀ (ch : Byte) (s : State),
    (s.fault = true →
      exec (.rdcfg ch) s = .next { s with responses := s.responses ++ [⟨.faulted, 0⟩] }) ∧
    (s.fault = false → (ch.toNat < 1 ∨ 4 < ch.toNat) →
      exec (.rdcfg ch) s = .next { s with responses := s.responses ++ [⟨.invalidChannel, 0⟩] }) ∧
    (∀ c : ChanIdx, s.fault = false → ch.toNat = c.val + 1 → chanAt s.chan c = none →
      exec (.rdcfg ch) s = .next { s with responses := s.responses ++ [⟨.ok, 0⟩] }) ∧
    (∀ (c : ChanIdx) (cfg : ChannelCfg), s.fault = false → ch.toNat = c.val + 1 → chanAt s.chan c = some cfg →
      cfg.pix.length ≤ 16 →
      ∃ d : Data, exec (.rdcfg ch) s = .next { s with responses := s.responses ++ [⟨.ok, d⟩] } ∧
        d.extractLsb' 8 24 = 0#24 ∧ d.getLsbD 7 = true ∧ d.getLsbD 6 = false ∧ d.getLsbD 5 = cfg.gamma ∧
        (d.extractLsb' 0 5).toNat = cfg.pix.length) ∧
    opField (encode (.rdcfg ch)) = 0x06 ∧ chField (encode (.rdcfg ch)) = ch ∧ ¬ unusedBitSet (encode (.rdcfg ch))

/-- R104: the storage commands do the same whether INIT_DONE is 0 or 1, and touch no line. -/
def Obligations.StorageCommandsIgnoreInit : Prop :=
  ∀ (i : Instr) (s t : State) (b : Bool), i.isStorage = true → exec i s = .next t →
    exec i { s with initDone := b } = .next { t with initDone := b } ∧
      t.initDone = s.initDone ∧ t.lines = s.lines ∧ t.pending = s.pending ∧ t.tr = s.tr

/-- R105, the reconfiguration law. -/
def Obligations.ReconfigurationResetsPixels : Prop :=
  ∀ (ch n : Byte) (gm : Bool) (s t : State),
    exec (.cfg ch n gm) s = .next t → t.responses = s.responses ++ [⟨.ok, 0⟩] →
      (∀ ix : Byte, ix.toNat < n.toNat →
        exec (.rdpx ch ix) t = .next { t with responses := t.responses ++ [⟨.ok, 0⟩] }) ∧
      (∀ ix : Byte, n.toNat ≤ ix.toNat →
        exec (.rdpx ch ix) t = .next { t with responses := t.responses ++ [⟨.indexOutOfRange, 0⟩] }) ∧
      exec (.cfg ch n gm) t = .next { t with responses := t.responses ++ [⟨.ok, 0⟩] }

/-- R106, the masking law: through the host binding, a stored pixel reads back as its integers masked to 8 bits. -/
def Obligations.StoredPixelReadsBackMasked : Prop :=
  ∀ (ch idx vr vg vb : Int) (set get : Instr) (s t : State),
    bindLine (.setpx ch idx vr vg vb) = some set → bindLine (.rdpx ch idx) = some get →
    exec set s = .next t → t.responses = s.responses ++ [⟨.ok, 0⟩] →
      ∃ d : Data, exec get t = .next { t with responses := t.responses ++ [⟨.ok, d⟩] } ∧
        (d.toNat : Int) = vr % 256 * 65536 + vg % 256 * 256 + vb % 256

/-- SETPX touches one pixel only: every other (channel number, index) pair reads as before (R51, R101). -/
def Obligations.SetpxLeavesOtherPixels : Prop :=
  ∀ (ch ix r g b ch' ix' : Byte) (s t : State) (resp : Response),
    exec (.setpx ch ix r g b) s = .next t → (ch', ix') ≠ (ch, ix) →
    exec (.rdpx ch' ix') s = .next { s with responses := s.responses ++ [resp] } →
      exec (.rdpx ch' ix') t = .next { t with responses := t.responses ++ [resp] }

/-- R107, for every command, with R191's one exception: an answer other than OK carries DATA 0 and leaves every piece of
state as it was, but that NotInitialized sets FAULT. -/
def Obligations.ErrorsChangeNothing : Prop :=
  ∀ (i : Instr) (s t : State) (r : Response),
    exec i s = .next t → t.responses = s.responses ++ [r] → r.status ≠ .ok →
      r.data = 0 ∧
        ((r.status ≠ .notInitialized ∧ t = { s with responses := s.responses ++ [r] }) ∨
          (r.status = .notInitialized ∧ i = .showCmd ∧ s.fault = false ∧ s.initDone = false ∧
            t = { s with fault := true, responses := s.responses ++ [r] }))

/-- Reads have no side effect, and a repeated read gives the same response (R59). -/
def Obligations.ReadsRepeat : Prop :=
  ∀ (i : Instr) (s : State), i.isRead = true →
    ∃ r : Response, exec i s = .next { s with responses := s.responses ++ [r] } ∧
      exec i { s with responses := s.responses ++ [r] } =
        .next { s with responses := s.responses ++ [r] ++ [r] }

/-! ## The control commands (44_control) and the order of checks (60_exceptions) -/

/-- R220, NOP. -/
def Obligations.NopChangesNothing : Prop :=
  (∀ s : State,
    (s.fault = true → exec .nop s = .next { s with responses := s.responses ++ [⟨.faulted, 0⟩] }) ∧
    (s.fault = false → exec .nop s = .next { s with responses := s.responses ++ [⟨.ok, 0⟩] })) ∧
  encode .nop = 0x0000000000000000 ∧
  ∀ w : Word, opField w = 0x00 → w ≠ 0 → ∃ why, decode w = .illegal why

/-- R221, INIT: the 13 events in order, MODE, LAT, INIT_DONE and the response, and nothing else; and its word. -/
def Obligations.InitDrivesLines : Prop :=
  (∀ s : State,
    (s.fault = true → exec .init s = .next { s with responses := s.responses ++ [⟨.faulted, 0⟩] }) ∧
    (s.fault = false → exec .init s = .next { s with
      initDone := true
      lines :=
        { mode := { dat := .output, clk := .output, sel := #v[.output, .output, .output, .output] }
          lat := { dat := false, clk := false, sel := #v[true, true, true, true] } }
      tr := s.tr ++ [.setup, .write .dat false, .write .clk false, .write (.sel 0) true, .write (.sel 1) true,
        .write (.sel 2) true, .write (.sel 3) true, .modeOut .dat, .modeOut .clk, .modeOut (.sel 0),
        .modeOut (.sel 1), .modeOut (.sel 2), .modeOut (.sel 3)]
      responses := s.responses ++ [⟨.ok, 0⟩] })) ∧
  encode .init = 0x0100000000000000

/-- R222, RDSTAT, with the layout of R31: answered whatever FAULT is, held while BUSY, without a side effect. -/
def Obligations.RdstatReportsStatus : Prop :=
  (∀ s : State, ∃ d : Data, exec .rdstat s = .next { s with responses := s.responses ++ [⟨.ok, d⟩] } ∧
    d.extractLsb' 13 19 = 0#19 ∧ d.extractLsb' 8 5 = Config.brightness ∧ d.extractLsb' 2 6 = 0#6 ∧
    d.getLsbD 1 = s.fault ∧ d.getLsbD 0 = s.initDone) ∧
  (∀ (s : State) (rest : List HostInput), s.inputs = .command (encode .rdstat) :: rest → s.pending ≠ [] →
    ∃ t, step s = .next t ∧ t.inputs = s.inputs) ∧
  encode .rdstat = 0x0700000000000000

/-- While FAULT = 1 every command but RDSTAT answers Faulted and does nothing else (R242, R243, R28). -/
def Obligations.FaultBlocksCommands : Prop :=
  ∀ (i : Instr) (s : State), s.fault = true → i ≠ .rdstat →
    exec i s = .next { s with responses := s.responses ++ [⟨.faulted, 0⟩] }

/-- Every command gives exactly one response, at once, but for a SHOW whose list is not empty, which gives none yet and
leaves the block BUSY; DATA is 0 but in the OK response of a read (R84, R240). -/
def Obligations.OneResponsePerCommand : Prop :=
  ∀ (i : Instr) (s : State), ∃ t, exec i s = .next t ∧
    ((∃ r : Response, t.responses = s.responses ++ [r] ∧ (r.data ≠ 0 → r.status = .ok ∧ i.isRead = true)) ∨
      (i = .showCmd ∧ t.responses = s.responses ∧ t.pending ≠ []))

/-! ## SHOW and the sequencer (43_show, 10_state) -/

/-- R191: SHOW before INIT sets FAULT, answers NotInitialized and drives no line. -/
def Obligations.ShowBeforeInitFaults : Prop :=
  ∀ s : State, s.fault = false → s.initDone = false →
    exec .showCmd s = .next { s with fault := true, responses := s.responses ++ [⟨.notInitialized, 0⟩] }

/-- An accepted SHOW writes PENDING and nothing else; with no channel configured it answers OK at once (R190, R192). -/
def Obligations.ShowAccepted : Prop :=
  ∀ s : State, s.fault = false → s.initDone = true →
    exec .showCmd s = .next { s with
      pending := showEvents Config.params s.chan
      responses := s.responses ++ if (∀ c, chanAt s.chan c = none) then [⟨.ok, 0⟩] else [] }

/-- A sequencer step performs the head of PENDING: the latch it names, TR, and the response when PENDING becomes empty
(R34). It happens whatever the host offers, short of a reset. -/
def Obligations.SequencerDrivesHead : Prop :=
  ∀ (s : State) (l : Line) (v : Bool) (rest : List Event), s.pending = .write l v :: rest → resetNext s = false →
    ∃ t, step s = .next t ∧ t.pending = rest ∧ t.tr = s.tr ++ [.write l v] ∧ t.lines.mode = s.lines.mode ∧
      (∀ l', t.lines.lat.get l' = if l' = l then v else s.lines.lat.get l') ∧
      t.responses = s.responses ++ (if rest = [] then [⟨.ok, 0⟩] else []) ∧
      t.chan = s.chan ∧ t.initDone = s.initDone ∧ t.fault = s.fault

/-- While BUSY the port takes no command: an offered one is held, and the storage and the flags stay (R34, R277). -/
def Obligations.CommandsHeldWhileBusy : Prop :=
  ∀ (s : State) (w : Word) (rest : List HostInput), s.inputs = .command w :: rest → s.pending ≠ [] →
    ∃ t, step s = .next t ∧ t.inputs = s.inputs ∧ t.chan = s.chan ∧ t.initDone = s.initDone ∧ t.fault = s.fault ∧
      t.pending.length + 1 = s.pending.length

/-- R190, R194: once taken, a SHOW runs to completion. After the step that takes it and k more, exactly the first k events
of its list have been driven, and the response comes with the last. -/
def Obligations.ShowRunsToCompletion : Prop :=
  ∀ (s : State) (rest : List HostInput), s.inputs = .command (encode .showCmd) :: rest → noResetNext rest →
    s.pending = [] → s.fault = false → s.initDone = true →
      ∀ k ≤ (showEvents Config.params s.chan).length,
        core.run (k + 1) s = .next { s with
          inputs := rest
          pending := (showEvents Config.params s.chan).drop k
          lines := s.lines.applyAll ((showEvents Config.params s.chan).take k)
          tr := s.tr ++ (showEvents Config.params s.chan).take k
          responses := s.responses ++
            if k = (showEvents Config.params s.chan).length then [⟨.ok, 0⟩] else [] }

/-- R195: a second SHOW drives the same list again. -/
def Obligations.SecondShowRepeatsList : Prop :=
  ∀ s : State, s.inputs = [.command (encode .showCmd), .command (encode .showCmd)] →
    s.pending = [] → s.fault = false → s.initDone = true →
      ∃ t, core.run (2 * ((showEvents Config.params s.chan).length + 1)) s = .next t ∧
        t.tr = s.tr ++ showEvents Config.params s.chan ++ showEvents Config.params s.chan ∧
        t.chan = s.chan ∧ t.pending = [] ∧ t.responses = s.responses ++ [⟨.ok, 0⟩, ⟨.ok, 0⟩]

/-- R271: a reset while BUSY, k events into a SHOW: those k stay in TR, followed by Reset; the rest is never driven and
the SHOW gives no response. -/
def Obligations.ResetCutsShowShort : Prop :=
  ∀ (s : State) (k : Nat) (o : Option Word) (rest : List HostInput),
    s.inputs = .command (encode .showCmd) :: (List.replicate k .idle ++ .reset o :: rest) →
    s.pending = [] → s.fault = false → s.initDone = true → k < (showEvents Config.params s.chan).length →
      ∃ t, core.run (k + 2) s = .next t ∧
        t.tr = s.tr ++ (showEvents Config.params s.chan).take k ++ [.reset] ∧
        t.responses = s.responses ∧ t.pending = [] ∧ t.initDone = false ∧ t.fault = false ∧
        (∀ c, chanAt t.chan c = none) ∧ (∀ l, t.lines.pin l = .z) ∧ t.inputs = rest

/-- R196: the counts of one SHOW. -/
def Obligations.ShowCounts : Prop :=
  ∀ (P : Params) (chan : Vector (Option ChannelCfg) 4),
    (showEvents P chan).length =
      (allChannels.map fun c => (chanAt chan c).elim 0 fun cfg =>
        142 + 96 * cfg.pix.length + if P.deselectAfterFrame then 1 else 0).sum ∧
    pulseCount (showEvents P chan) =
      (allChannels.map fun c => (chanAt chan c).elim 0 fun cfg => 68 + 32 * cfg.pix.length).sum ∧
    (∀ c, (showEvents P chan).count (.write (.sel c) false) = if (chanAt chan c).isSome then 1 else 0)

/-- R197: the latches after a SHOW that drove something, and after one that drove nothing. -/
def Obligations.LinesAfterShow : Prop :=
  ∀ (P : Params) (chan : Vector (Option ChannelCfg) 4) (ls : LineState),
    ((∀ c, chanAt chan c = none) → ls.applyAll (showEvents P chan) = ls) ∧
    (∀ c : ChanIdx, (chanAt chan c).isSome → (∀ c' : ChanIdx, c < c' → chanAt chan c' = none) →
      (ls.applyAll (showEvents P chan)).lat.get .dat = false ∧
      (ls.applyAll (showEvents P chan)).lat.get .clk = false ∧
      ∀ k : ChanIdx, (ls.applyAll (showEvents P chan)).lat.get (.sel k) =
        if k = c ∧ P.deselectAfterFrame = false then false else true)

/-- R193: a configured-but-empty channel is still selected and framed. -/
def Obligations.EmptyChannelIsFramed : Prop :=
  ∀ (P : Params) (c : ChanIdx) (gm d : Bool),
    let es := showEvents P (noChannels.set c (some ⟨gm, []⟩))
    es = select c ++ sof ++ eof ++ deselect P c ∧ (P.deselectAfterFrame = false → es.length = 142) ∧
      pulseCount es = 68 ∧ bits d es = List.replicate 68 false

/-- R198: a SHOW never selects an ABSENT channel and clocks nothing to it. -/
def Obligations.AbsentChannelIsSkipped : Prop :=
  ∀ (P : Params) (chan : Vector (Option ChannelCfg) 4) (c : ChanIdx) (ls : LineState), chanAt chan c = none →
    .write (.sel c) false ∉ showEvents P chan ∧ channelStream c ls (showEvents P chan) = []

/-- R177: where a select line stands at 1 before a SHOW and its channel is ABSENT, the pin stays at 1 throughout. -/
def Obligations.AbsentSelectPinStaysHigh : Prop :=
  ∀ (P : Params) (chan : Vector (Option ChannelCfg) 4) (c : ChanIdx) (ls : LineState), chanAt chan c = none →
    ls.pin (.sel c) = .level true → ∀ x ∈ waveform (.sel c) ls (showEvents P chan), x = .level true

/-! ## The framer and the selector (41_frame_encoder, 42_channel_selector) -/

/-- R144: the header byte. -/
def Obligations.HeaderByte : Prop :=
  ∀ P : Params, hdr P = 0xE0#8 ||| P.brightness.setWidth 8 ∧ (hdr P).extractLsb' 5 3 = 0b111#3 ∧
    (hdr P).extractLsb' 0 5 = P.brightness ∧ 0xE0 ≤ (hdr P).toNat ∧ (hdr P).toNat ≤ 0xFF

/-- R54, R55: a pixel on the wire is header, blue, green, red, each bit 7 first; with gamma on, the colours pass through
GAMMA_FN and the header does not (R146). The bits do not depend on DAT's level before. -/
def Obligations.PixelWireOrder : Prop :=
  ∀ (P : Params) (p : Pixel) (gm d : Bool), ∃ x b g r : Byte,
    x = 0xE0#8 ||| P.brightness.setWidth 8 ∧
    b = (if gm then P.gammaFn p.b else p.b) ∧ g = (if gm then P.gammaFn p.g else p.g) ∧
    r = (if gm then P.gammaFn p.r else p.r) ∧
    bits d (pixelOut P p gm) = [x, b, g, r].flatMap fun y =>
      [y.getLsbD 7, y.getLsbD 6, y.getLsbD 5, y.getLsbD 4, y.getLsbD 3, y.getLsbD 2, y.getLsbD 1, y.getLsbD 0]

/-- R151, the frame bit law. -/
def Obligations.FrameBitLaw : Prop :=
  ∀ (P : Params) (cfg : ChannelCfg) (d : Bool),
    bits d (frame P cfg) = frameBits P cfg ∧ (frameBits P cfg).length = 68 + 32 * cfg.pix.length

/-- R152: DAT is stable while CLK is high in every list the framer builds, and sampling at the falling edge gives the same
bits as at the rising edge. -/
def Obligations.DatStableWhileClkHigh : Prop :=
  ∀ (P : Params) (es : List Event), FramerList P es →
    datStable false es = true ∧ ∀ d, bitsAtFall d es = bits d es

/-- R153: event and pulse counts of every framer operation. -/
def Obligations.FramerCounts : Prop :=
  (pulse.length = 2 ∧ pulseCount pulse = 1) ∧
  (∀ v, (shiftBit v).length = 3 ∧ pulseCount (shiftBit v) = 1) ∧
  (∀ x, (writeByte x).length = 24 ∧ pulseCount (writeByte x) = 8) ∧
  (∀ P p gm, (pixelOut P p gm).length = 96 ∧ pulseCount (pixelOut P p gm) = 32) ∧
  (sof.length = 65 ∧ pulseCount sof = 32) ∧ (eof.length = 73 ∧ pulseCount eof = 36) ∧
  ∀ P cfg, (frame P cfg).length = 138 + 96 * cfg.pix.length ∧ pulseCount (frame P cfg) = 68 + 32 * cfg.pix.length

/-- R171: select writes the four select lines once each, in ascending order, whatever they were, and no other line. -/
def Obligations.SelectIsOneHot : Prop :=
  ∀ (c : ChanIdx) (ls : LineState),
    select c = [.write (.sel 0) (decide (0 ≠ c)), .write (.sel 1) (decide (1 ≠ c)),
      .write (.sel 2) (decide (2 ≠ c)), .write (.sel 3) (decide (3 ≠ c))] ∧
    pulseCount (select c) = 0 ∧
    (∀ k : ChanIdx, (ls.applyAll (select c)).lat.get (.sel k) = decide (k ≠ c)) ∧
    (ls.applyAll (select c)).lat.get .dat = ls.lat.get .dat ∧
    (ls.applyAll (select c)).lat.get .clk = ls.lat.get .clk ∧ (ls.applyAll (select c)).mode = ls.mode

/-- R173: during every clock pulse of a channel's frame, exactly its own select pin is at 0. -/
def Obligations.OneChannelSelectedPerPulse : Prop :=
  ∀ (P : Params) (c : ChanIdx) (cfg : ChannelCfg) (ls : LineState), (∀ l, ls.mode.get l = .output) →
    ∀ pre post, select c ++ frame P cfg ++ deselect P c = pre ++ .write .clk true :: post →
      ∀ k, (ls.applyAll pre).pin (.sel k) = .level (if k = c then false else true)

/-- R155: in a SHOW that starts with the clock pin at 0, every write of CLK is an edge: up from 0, down from 1. That every
SHOW starts so is the invariant `LinesFollowInit`. -/
def Obligations.ClkWritesAreEdges : Prop :=
  ∀ (P : Params) (chan : Vector (Option ChannelCfg) 4) (ls : LineState), ls.pin .clk = .level false →
    ∀ pre post v, showEvents P chan = pre ++ .write .clk v :: post →
      (ls.applyAll pre).pin .clk = .level (!v)

/-- R175: from lines that are outputs, a SHOW delivers to each configured channel exactly its frame's bits, and nothing to
an ABSENT one, whatever the parameters and the latches before. -/
def Obligations.ChannelsReceiveTheirFrames : Prop :=
  ∀ (P : Params) (chan : Vector (Option ChannelCfg) 4) (c : ChanIdx) (ls : LineState),
    (∀ l, ls.mode.get l = .output) →
      channelStream c ls (showEvents P chan) = (chanAt chan c).elim [] (frameBits P)

/-- The same of the machine: when a SHOW taken by a step has run to its end, what each channel has received since power-on
has grown by exactly its frame (R175, R190, R194). The premises are the invariants `LinesFollowInit` and
`PinsFollowTrace`. -/
def Obligations.CompletedShowDeliversFrames : Prop :=
  ∀ (s : State) (rest : List HostInput), s.inputs = .command (encode .showCmd) :: rest → noResetNext rest →
    s.pending = [] → s.fault = false → s.initDone = true → LinesFollowInit s → PinsFollowTrace s →
      ∃ t, core.run ((showEvents Config.params s.chan).length + 1) s = .next t ∧ t.pending = [] ∧
        t.responses = s.responses ++ [⟨.ok, 0⟩] ∧
        ∀ c, received c t = received c s ++ (chanAt s.chan c).elim [] (frameBits Config.params)

/-! ## Reset and the step (70_reset_and_hazards, 10_state) -/

/-- The values R270 gives, at power-on and after a later reset. LAT is left out: the spec says "unspecified". -/
def Obligations.PowerOnState : Prop :=
  ((∀ c, chanAt State.reset.chan c = none ∧ cfgView (chanAt State.reset.chan c) = 0) ∧
    State.reset.initDone = false ∧ State.reset.fault = false ∧
    (∀ l, State.reset.lines.mode.get l = .input ∧ State.reset.lines.pin l = .z) ∧
    State.reset.pending = [] ∧ busy State.reset = false ∧ State.reset.tr = [] ∧
    exec .rdstat State.reset =
      .next { State.reset with responses := [⟨.ok, Config.brightness.setWidth 32 <<< 8⟩] }) ∧
  ∀ (s : State) (o : Option Word) (rest : List HostInput), s.inputs = .reset o :: rest →
    ∃ t, step s = .next t ∧ (∀ c, chanAt t.chan c = none ∧ cfgView (chanAt t.chan c) = 0) ∧
      t.initDone = false ∧ t.fault = false ∧ (∀ l, t.lines.mode.get l = .input ∧ t.lines.pin l = .z) ∧
      t.pending = [] ∧ busy t = false ∧ t.tr = s.tr ++ [.reset] ∧
      exec .rdstat t =
        .next { t with responses := t.responses ++ [⟨.ok, Config.brightness.setWidth 32 <<< 8⟩] }

/-- R271, R252: a reset after power-on, whatever goes on and whatever the host offers at that moment: every element
at its reset value, Reset appended to TR, no response. LAT is left out: the spec says "unspecified". -/
def Obligations.ResetStepClears : Prop :=
  ∀ (s : State) (o : Option Word) (rest : List HostInput), s.inputs = .reset o :: rest →
    ∃ t, step s = .next t ∧ (∀ c, chanAt t.chan c = none) ∧ t.initDone = false ∧ t.fault = false ∧
      (∀ l, t.lines.mode.get l = .input ∧ t.lines.pin l = .z) ∧ t.pending = [] ∧ t.tr = s.tr ++ [.reset] ∧
      t.responses = s.responses ∧ t.inputs = rest

/-- R272: with nothing offered and nothing pending the block does nothing, after power-on in particular. -/
def Obligations.NothingHappensUnasked : Prop :=
  (∀ s : State, s.inputs = [] → s.pending = [] → step s = .next s) ∧ step State.reset = .next State.reset

/-- A command word on a free port that decodes to a command: the step is that command, on the state without the word
(R60, R242). -/
def Obligations.StepRunsDecodedCommand : Prop :=
  ∀ (s : State) (w : Word) (rest : List HostInput) (i : Instr),
    s.inputs = .command w :: rest → s.pending = [] → decode w = .command i →
      step s = exec i { s with inputs := rest }

/-- No step stops the machine, from any state: the model's choice (log entry 13), by which an error is a response and the
next command is taken as usual, as R241 and R245 say of errors. -/
def Obligations.StepAlwaysAnswers : Prop := ∀ s : State, ∃ t, step s = .next t

/-- R39, and R21: a channel record changes only when a CFG or a SETPX is taken or a reset comes, and only a reset makes a
configured channel ABSENT. -/
def Obligations.ConfiguredStaysConfigured : Prop :=
  ∀ (s t : State) (c : ChanIdx), step s = .next t →
    (chanAt t.chan c ≠ chanAt s.chan c → resetNext s = true ∨
      (∃ ch n gm, takenNext s = some (.cfg ch n gm)) ∨ ∃ ch ix r g b, takenNext s = some (.setpx ch ix r g b)) ∧
    (chanAt s.chan c ≠ none → chanAt t.chan c = none → resetNext s = true)

/-- R27, R28, R32: INIT alone sets INIT_DONE and writes MODE, a SHOW that finds INIT_DONE = 0 alone sets FAULT, and a
reset alone clears them. The premise on PENDING holds in every state a run reaches (`LinesFollowInit`). -/
def Obligations.FlagsChangeAsStated : Prop :=
  ∀ s t : State, AllWrites s.pending → step s = .next t →
    (s.initDone = false → t.initDone = true → takenNext s = some .init ∧ s.fault = false) ∧
    (s.initDone = true → t.initDone = false → resetNext s = true) ∧
    (s.fault = false → t.fault = true → takenNext s = some .showCmd ∧ s.initDone = false) ∧
    (s.fault = true → t.fault = false → resetNext s = true) ∧
    (t.lines.mode ≠ s.lines.mode → takenNext s = some .init ∨ resetNext s = true)

/-- R35: a step only appends to TR, and at most one response is given in a step. -/
def Obligations.TraceOnlyGrows : Prop :=
  ∀ s t : State, step s = .next t →
    (∃ es, t.tr = s.tr ++ es) ∧ ∃ rs, t.responses = s.responses ++ rs ∧ rs.length ≤ 1

/-! ## Invariants, kept by every step -/

/-- R22: no channel ever holds more than 16 pixels. -/
def Obligations.ChannelsStayBounded : Prop :=
  ∀ s t : State, ChannelsBounded s → step s = .next t → ChannelsBounded t

/-- R28, R191: FAULT = 1 only while INIT_DONE = 0. -/
def Obligations.FaultStaysApartFromInit : Prop :=
  ∀ s t : State, FaultExcludesInit s → step s = .next t → FaultExcludesInit t

/-- R32, R197, R272, R274: before INIT every pin is Z; after it every line is an output and the lines settle as `Booted`
wants them once what is pending is driven, so that between SHOWs a machine that was initialised and has not faulted is
Booted. -/
def Obligations.LinesKeepFollowingInit : Prop :=
  (∀ s t : State, LinesFollowInit s → step s = .next t → LinesFollowInit t) ∧
  ∀ s : State, LinesFollowInit s → Clean s → s.initDone = true → Booted Config.params s

/-- R33, R35: the pins are always what the trace alone says. -/
def Obligations.PinsKeepFollowingTrace : Prop :=
  ∀ s t : State, PinsFollowTrace s → step s = .next t → PinsFollowTrace t

/-- R155, R173: whatever is pending, each of its clock pulses will rise from 0 with exactly one channel selected. -/
def Obligations.PulsesStaySafe : Prop :=
  ∀ s t : State, LinesFollowInit s → (s.initDone = true → PulsesSafe s.lines s.pending) → step s = .next t →
    LinesFollowInit t ∧ (t.initDone = true → PulsesSafe t.lines t.pending)

/-- R223: a machine whose inputs have every SHOW after an INIT never enters FAULT: the premise is kept by every step.
That the inputs still to come are a list in the state is the model's choice (log entry 5). -/
def Obligations.WellBootedNeverFaults : Prop :=
  ∀ s t : State, s.fault = false → wellBooted s.initDone s.inputs = true → step s = .next t →
    t.fault = false ∧ wellBooted t.initDone t.inputs = true

/-- Every invariant holds at power-on. -/
def Obligations.PowerOnMeetsInvariants : Prop :=
  ChannelsBounded State.reset ∧ FaultExcludesInit State.reset ∧ LinesFollowInit State.reset ∧
    PinsFollowTrace State.reset ∧ (State.reset.initDone = true → PulsesSafe State.reset.lines State.reset.pending)

/-- R11: PIN_MAP is injective. That it comes from a permutation of the numbers is the model's choice (log entry 4). -/
def Obligations.PinMapInjective : Prop := Function.Injective Config.pinMap
end

