-- ==== Sys2Proof/Laws/Assembler.lean ====
section
/-! SUPPORT. What the host binding sends, said once: when it refuses, and the values of the fields (30_encoding R83). -/

namespace Sys2Proof.Machine

theorem sendIx_eq_none_iff (v : Int) : sendIx v = none ↔ v < 0 := by
  unfold sendIx
  by_cases h0 : v < 0
  · simp [h0]
  · by_cases h1 : v ≤ 255 <;> simp [h0, h1]

theorem sendIx_isSome (v : Int) : (sendIx v).isSome = decide (0 ≤ v) := by
  cases h : sendIx v with
  | none =>
    have := (sendIx_eq_none_iff v).1 h
    simpa using this
  | some x =>
    have : ¬ v < 0 := fun hv => by simp [(sendIx_eq_none_iff v).2 hv] at h
    simpa using this

/-- The binding refuses a line exactly when it is ill formed. -/
theorem bindLine_isSome (a : AsmLine) : (bindLine a).isSome = a.wf := by
  cases a with
  | cfg ch n gm =>
    have hn := sendIx_isSome n
    simp only [bindLine, AsmLine.wf, ← hn]
    unfold sendGamma
    cases sendIx n <;> by_cases h0 : gm = 0 <;> by_cases h1 : gm = 1 <;> simp [h0, h1]
  | _ => simp [bindLine, AsmLine.wf, sendIx_isSome]

end Sys2Proof.Machine
end

