-- ==== Sys2Proof/Laws/Decode.lean ====
section
/-! SUPPORT. The fields of a packed word are what was packed, and the reserved ones are 0 (30_encoding R71). -/

namespace Sys2Proof

/-! The unused bits of each format are 0 in a packed word (R72). -/

@[simp] theorem unused_formatN (op : Byte) :
    (packFields op 0#8 0#8 false 0#8 0#8 0#8).extractLsb' 0 56 = 0#56 := by
  apply BitVec.eq_of_getLsbD_eq
  intro i hi
  have h0 : i < 64 := by omega
  simp [packFields, hi, h0]

@[simp] theorem unused_formatC (op ch ix : Byte) (gm : Bool) :
    (packFields op ch ix gm 0#8 0#8 0#8).extractLsb' 0 32 = 0#32 := by
  apply BitVec.eq_of_getLsbD_eq
  intro i hi
  have h0 : i < 64 := by omega
  have h1 : i < 40 := by omega
  have h2 : i < 48 := by omega
  have h3 : i < 56 := by omega
  simp [packFields, hi, h0, h1, h2, h3]

@[simp] theorem unused_formatP (op ch ix r g b : Byte) :
    (packFields op ch ix false r g b).extractLsb' 24 16 = 0#16 := by
  apply BitVec.eq_of_getLsbD_eq
  intro i hi
  have h0 : 24 + i < 40 := by omega
  have h1 : 24 + i < 48 := by omega
  have h2 : 24 + i < 56 := by omega
  have h3 : 24 + i < 64 := by omega
  have h4 : 8 ≤ 24 + i - 16 := by omega
  have h5 : 8 ≤ 24 + i - 8 := by omega
  have h6 : 8 ≤ 24 + i := by omega
  simp [packFields, h0, h1, h2, h3, BitVec.getLsbD_of_ge _ _ h4, BitVec.getLsbD_of_ge _ _ h5,
    BitVec.getLsbD_of_ge _ _ h6]

@[simp] theorem unused_formatI (op ch ix : Byte) :
    (packFields op ch ix false 0#8 0#8 0#8).extractLsb' 0 40 = 0#40 := by
  apply BitVec.eq_of_getLsbD_eq
  intro i hi
  have h0 : i < 64 := by omega
  have h1 : i < 48 := by omega
  have h2 : i < 56 := by omega
  simp [packFields, hi, h0, h1, h2]

@[simp] theorem unused_formatK (op ch : Byte) :
    (packFields op ch 0#8 false 0#8 0#8 0#8).extractLsb' 0 48 = 0#48 := by
  apply BitVec.eq_of_getLsbD_eq
  intro i hi
  have h0 : i < 64 := by omega
  have h1 : i < 56 := by omega
  simp [packFields, hi, h0, h1]

/-! The fields of a packed word. -/

variable (op ch ix : Byte) (gm : Bool) (r g b : Byte)

@[simp] theorem opField_packFields : opField (packFields op ch ix gm r g b) = op := by
  ext i hi
  simp only [opField, packFields]
  interval_cases i <;> simp

@[simp] theorem chField_packFields : chField (packFields op ch ix gm r g b) = ch := by
  ext i hi
  simp only [chField, packFields]
  interval_cases i <;> simp

@[simp] theorem ixField_packFields : ixField (packFields op ch ix gm r g b) = ix := by
  ext i hi
  simp only [ixField, packFields]
  interval_cases i <;> simp

@[simp] theorem rsv1Field_packFields : rsv1Field (packFields op ch ix gm r g b) = 0#7 := by
  ext i hi
  simp only [rsv1Field, packFields]
  interval_cases i <;> simp

@[simp] theorem gmField_packFields : gmField (packFields op ch ix gm r g b) = gm := by
  simp [gmField, packFields]

@[simp] theorem rsv2Field_packFields : rsv2Field (packFields op ch ix gm r g b) = 0#8 := by
  ext i hi
  simp only [rsv2Field, packFields]
  interval_cases i <;> simp

@[simp] theorem rField_packFields : rField (packFields op ch ix gm r g b) = r := by
  ext i hi
  simp only [rField, packFields]
  interval_cases i <;> simp

@[simp] theorem gField_packFields : gField (packFields op ch ix gm r g b) = g := by
  ext i hi
  simp only [gField, packFields]
  interval_cases i <;> simp

@[simp] theorem bField_packFields : bField (packFields op ch ix gm r g b) = b := by
  ext i hi
  simp only [bField, packFields]
  interval_cases i <;> simp

/-- A slice of a slice that is 0 is 0. -/
theorem extractLsb'_eq_zero_of_slice {w : Word} {lo len : Nat} (h : w.extractLsb' lo len = 0#len) {lo' len' : Nat}
    (h1 : lo ≤ lo') (h2 : lo' + len' ≤ lo + len) : w.extractLsb' lo' len' = 0#len' := by
  ext i hi
  have := congrArg (fun x => x.getLsbD (lo' + i - lo)) h
  have hh : lo' + i - lo < len := by omega
  simp only [BitVec.getLsbD_extractLsb', hh, decide_true, Bool.true_and] at this
  rw [show lo + (lo' + i - lo) = lo' + i by omega] at this
  simpa using this

/-- GM is 0 if it lies in a slice that is 0. -/
theorem gmField_eq_false_of_slice {w : Word} {lo len : Nat} (h : w.extractLsb' lo len = 0#len) (h1 : lo ≤ 32)
    (h2 : 32 < lo + len) : gmField w = false := by
  have := congrArg (fun x => x.getLsbD (32 - lo)) h
  have hh : 32 - lo < len := by omega
  simp only [BitVec.getLsbD_extractLsb', hh, decide_true, Bool.true_and] at this
  rw [show lo + (32 - lo) = 32 by omega] at this
  simpa [gmField] using this

/-- Two words with the same fields are equal: the nine fields of R71 are all of the word. -/
theorem word_ext_fields {v w : Word} (hop : opField v = opField w) (hch : chField v = chField w)
    (hix : ixField v = ixField w) (h1 : rsv1Field v = rsv1Field w) (hgm : gmField v = gmField w)
    (h2 : rsv2Field v = rsv2Field w) (hr : rField v = rField w) (hg : gField v = gField w)
    (hb : bField v = bField w) : v = w := by
  have key : ∀ (lo len : Nat), v.extractLsb' lo len = w.extractLsb' lo len →
      ∀ i, lo ≤ i → i < lo + len → v.getLsbD i = w.getLsbD i := by
    intro lo len h i hlo hhi
    have := congrArg (fun x => x.getLsbD (i - lo)) h
    have hlt : i - lo < len := by omega
    simpa [BitVec.getLsbD_extractLsb', hlt, Nat.add_sub_cancel' hlo] using this
  apply BitVec.eq_of_getLsbD_eq
  intro i hi
  by_cases c1 : 56 ≤ i; · exact key 56 8 hop i c1 hi
  by_cases c2 : 48 ≤ i; · exact key 48 8 hch i c2 (by omega)
  by_cases c3 : 40 ≤ i; · exact key 40 8 hix i c3 (by omega)
  by_cases c4 : 33 ≤ i; · exact key 33 7 h1 i c4 (by omega)
  by_cases c5 : 32 ≤ i
  · obtain rfl : i = 32 := by omega
    exact hgm
  by_cases c6 : 24 ≤ i; · exact key 24 8 h2 i c6 (by omega)
  by_cases c7 : 16 ≤ i; · exact key 16 8 hr i c7 (by omega)
  by_cases c8 : 8 ≤ i; · exact key 8 8 hg i c8 (by omega)
  exact key 0 8 hb i (by omega) (by omega)

theorem ifUnusedZero_eq_command_iff {z : Bool} {i j : Instr} :
    ifUnusedZero z i = .command j ↔ z = true ∧ i = j := by
  cases z <;> simp [ifUnusedZero]

end Sys2Proof
end

