-- ==== Sys2Proof/Laws/Lines.lean ====
section
/-! SUPPORT. Reading and writing one line's value, and what events do to MODE and LAT. -/

namespace Sys2Proof.Machine

/-- A write changes the value of its own line and of no other. -/
theorem PerLine.get_set {α : Type} (v : PerLine α) (l l' : Line) (x : α) :
    (v.set l x).get l' = if l' = l then x else v.get l' := by
  cases l <;> cases l' <;> simp [PerLine.set, PerLine.get, Fin.ext_iff, Vector.getElem_set, eq_comm]

@[simp] theorem PerLine.get_set_self {α : Type} (v : PerLine α) (l : Line) (x : α) :
    (v.set l x).get l = x := by simp [PerLine.get_set]

@[simp] theorem PerLine.get_const {α : Type} (x : α) (l : Line) : (PerLine.const x).get l = x := by
  cases l <;> simp [PerLine.const, PerLine.get]

@[simp] theorem PerLine.get_ofFn {α : Type} (f : Line → α) (l : Line) : (PerLine.ofFn f).get l = f l := by
  rcases l with _ | _ | ⟨k, hk⟩
  · rfl
  · rfl
  · rcases k with _ | _ | _ | _ | k <;> first | rfl | omega

/-- Values that agree on every line are equal. -/
theorem PerLine.ext_get {α : Type} {v w : PerLine α} (h : ∀ l, v.get l = w.get l) : v = w := by
  obtain ⟨vd, vc, vs⟩ := v
  obtain ⟨wd, wc, ws⟩ := w
  have hd : vd = wd := h .dat
  have hc : vc = wc := h .clk
  have hs : vs = ws := Vector.ext fun i hi => h (.sel ⟨i, hi⟩)
  rw [hd, hc, hs]

@[simp] theorem apply_setup (s : LineState) : s.apply .setup = s := rfl
@[simp] theorem apply_write_mode (s : LineState) (l : Line) (v : Bool) : (s.apply (.write l v)).mode = s.mode := rfl
@[simp] theorem apply_write_lat (s : LineState) (l : Line) (v : Bool) :
    (s.apply (.write l v)).lat = s.lat.set l v := rfl
@[simp] theorem apply_modeOut_mode (s : LineState) (l : Line) :
    (s.apply (.modeOut l)).mode = s.mode.set l .output := rfl
@[simp] theorem apply_modeOut_lat (s : LineState) (l : Line) : (s.apply (.modeOut l)).lat = s.lat := rfl
@[simp] theorem apply_reset_mode (s : LineState) : (s.apply .reset).mode = .const .input := rfl
@[simp] theorem apply_reset_lat (s : LineState) : (s.apply .reset).lat = s.lat := rfl

@[simp] theorem applyAll_nil (s : LineState) : s.applyAll [] = s := rfl
@[simp] theorem applyAll_cons (s : LineState) (e : Event) (es : List Event) :
    s.applyAll (e :: es) = (s.apply e).applyAll es := rfl
theorem applyAll_append (s : LineState) (es fs : List Event) :
    s.applyAll (es ++ fs) = (s.applyAll es).applyAll fs := List.foldl_append

/-- A list of writes changes no MODE. -/
theorem applyAll_mode_of_writes {es : List Event} (h : ∀ e ∈ es, ∃ l v, e = .write l v) (s : LineState) :
    (s.applyAll es).mode = s.mode := by
  induction es generalizing s with
  | nil => rfl
  | cons e es ih =>
    obtain ⟨l, v, rfl⟩ := h e (by simp)
    simpa using ih (fun e he => h e (by simp [he])) (s.apply (.write l v))

/-- A list that writes no line but others leaves a line's latch alone. -/
theorem applyAll_lat_of_not_written {es : List Event} {l : Line} (h : ∀ v, .write l v ∉ es) (s : LineState) :
    (s.applyAll es).lat.get l = s.lat.get l := by
  induction es generalizing s with
  | nil => rfl
  | cons e es ih =>
    rw [applyAll_cons, ih fun v hv => h v (by simp [hv])]
    cases e with
    | write l' v =>
      have hne : l ≠ l' := fun heq => h v (by simp [heq])
      simp [PerLine.get_set, hne]
    | setup => rfl
    | modeOut l' => rfl
    | reset => rfl

/-- A pin is driven at a level exactly when its line is an output with that latch. -/
theorem pin_eq_level_iff (s : LineState) (l : Line) (v : Bool) :
    s.pin l = .level v ↔ s.mode.get l = .output ∧ s.lat.get l = v := by
  unfold LineState.pin
  cases s.mode.get l <;> simp

@[simp] theorem pin_of_output {s : LineState} {l : Line} (h : s.mode.get l = .output) :
    s.pin l = .level (s.lat.get l) := by simp [LineState.pin, h]

end Sys2Proof.Machine
end

