-- ==== Sys2Proof/Laws/Framer.lean ====
section
/-! SUPPORT. The observers over concatenated lists, and which events the framer and the selector produce. -/

namespace Sys2Proof.Machine

/-- The DAT latch after a list. -/
def datAfter (d : Bool) : List Event → Bool
  | [] => d
  | .write .dat v :: es => datAfter v es
  | _ :: es => datAfter d es

theorem datAfter_append (d : Bool) (es fs : List Event) :
    datAfter d (es ++ fs) = datAfter (datAfter d es) fs := by
  fun_induction datAfter d es <;> simp_all [datAfter]

/-- The clocked bits of two lists in a row: the second starts at the DAT level the first leaves. -/
theorem bits_append (d : Bool) (es fs : List Event) :
    bits d (es ++ fs) = bits d es ++ bits (datAfter d es) fs := by
  fun_induction bits d es <;> simp_all [bits, datAfter]

@[simp] theorem channelStream_nil (c : ChanIdx) (ls : LineState) : channelStream c ls [] = [] := rfl

theorem channelStream_append (c : ChanIdx) (ls : LineState) (es fs : List Event) :
    channelStream c ls (es ++ fs) = channelStream c ls es ++ channelStream c (ls.applyAll es) fs := by
  induction es generalizing ls with
  | nil => simp
  | cons e es ih => simp [channelStream, ih]

theorem waveform_append (l : Line) (ls : LineState) (es fs : List Event) :
    waveform l ls (es ++ fs) = waveform l ls es ++ waveform l (ls.applyAll es) fs := by
  induction es generalizing ls with
  | nil => simp [waveform]
  | cons e es ih => simp [waveform, ih]

theorem pulseCount_append (es fs : List Event) : pulseCount (es ++ fs) = pulseCount es + pulseCount fs := by
  simp [pulseCount]

/-- A list writes DAT and CLK only. -/
def SharedLinesOnly (es : List Event) : Prop := ∀ e ∈ es, ∃ v, e = .write .dat v ∨ e = .write .clk v

theorem sharedLinesOnly_nil : SharedLinesOnly [] := by simp [SharedLinesOnly]

theorem sharedLinesOnly_append {es fs : List Event} (he : SharedLinesOnly es) (hf : SharedLinesOnly fs) :
    SharedLinesOnly (es ++ fs) := by
  intro e h
  rcases List.mem_append.1 h with h | h
  · exact he e h
  · exact hf e h

theorem sharedLinesOnly_flatMap {α : Type} {f : α → List Event} (h : ∀ x, SharedLinesOnly (f x)) (xs : List α) :
    SharedLinesOnly (xs.flatMap f) := by
  intro e he
  obtain ⟨x, -, hx⟩ := List.mem_flatMap.1 he
  exact h x e hx

theorem sharedLinesOnly_pulse : SharedLinesOnly pulse := by simp [SharedLinesOnly, pulse, drive]

theorem sharedLinesOnly_shiftBit (v : Bool) : SharedLinesOnly (shiftBit v) :=
  sharedLinesOnly_append (by simp [SharedLinesOnly, drive]) sharedLinesOnly_pulse

theorem sharedLinesOnly_writeByte (x : Byte) : SharedLinesOnly (writeByte x) :=
  sharedLinesOnly_flatMap sharedLinesOnly_shiftBit _

theorem sharedLinesOnly_pixelOut (P : Params) (p : Pixel) (gm : Bool) : SharedLinesOnly (pixelOut P p gm) :=
  sharedLinesOnly_append (sharedLinesOnly_append (sharedLinesOnly_append (sharedLinesOnly_writeByte _)
    (sharedLinesOnly_writeByte _)) (sharedLinesOnly_writeByte _)) (sharedLinesOnly_writeByte _)

theorem sharedLinesOnly_pulses (n : Nat) : SharedLinesOnly (pulses n) := by
  intro e he
  obtain ⟨es, hes, he⟩ := List.mem_flatten.1 he
  rw [List.eq_of_mem_replicate hes] at he
  exact sharedLinesOnly_pulse e he

theorem sharedLinesOnly_sof : SharedLinesOnly sof :=
  sharedLinesOnly_append (by simp [SharedLinesOnly, drive]) (sharedLinesOnly_pulses _)

theorem sharedLinesOnly_eof : SharedLinesOnly eof :=
  sharedLinesOnly_append (by simp [SharedLinesOnly, drive]) (sharedLinesOnly_pulses _)

/-- A frame writes no select line (R173). -/
theorem sharedLinesOnly_frame (P : Params) (cfg : ChannelCfg) : SharedLinesOnly (frame P cfg) :=
  sharedLinesOnly_append (sharedLinesOnly_append sharedLinesOnly_sof
    (sharedLinesOnly_flatMap (fun p => sharedLinesOnly_pixelOut P p cfg.gamma) _)) sharedLinesOnly_eof

/-- The select sequence, event by event (R171). -/
theorem select_eq (c : ChanIdx) :
    select c = [.write (.sel 0) (if 0 = c then selActive else selInactive),
      .write (.sel 1) (if 1 = c then selActive else selInactive),
      .write (.sel 2) (if 2 = c then selActive else selInactive),
      .write (.sel 3) (if 3 = c then selActive else selInactive)] := rfl

/-- What the four channels contribute, in order (R192). -/
theorem showEvents_eq (P : Params) (chan : Vector (Option ChannelCfg) 4) :
    showEvents P chan =
      channelEvents P 0 (chanAt chan 0) ++ channelEvents P 1 (chanAt chan 1) ++
        channelEvents P 2 (chanAt chan 2) ++ channelEvents P 3 (chanAt chan 3) := by
  simp [showEvents, allChannels]

/-! ## Pulses and bytes -/

theorem pulses_succ (n : Nat) : pulses (n + 1) = pulse ++ pulses n := by
  simp [pulses, List.replicate_succ]

/-- n pulses clock the DAT level n times and leave it. -/
theorem bits_pulses (d : Bool) (n : Nat) : bits d (pulses n) = List.replicate n d ∧ datAfter d (pulses n) = d := by
  induction n with
  | zero => simp [pulses, bits, datAfter]
  | succ n ih =>
    rw [pulses_succ, bits_append, datAfter_append]
    simp [pulse, drive, bits, datAfter, ih, List.replicate_succ]

/-- The bits of a list of pieces, each of which gives the same bits whatever DAT was before. -/
theorem bits_flatMap {α : Type} {f : α → List Event} {g : α → List Bool} (h : ∀ d x, bits d (f x) = g x)
    (xs : List α) (d : Bool) : bits d (xs.flatMap f) = xs.flatMap g := by
  induction xs generalizing d with
  | nil => rfl
  | cons x xs ih => simp [bits_append, h, ih]

theorem bits_shiftBit (d v : Bool) : bits d (shiftBit v) = [v] := by cases v <;> rfl

/-- A byte is clocked most significant bit first (R55, R143). -/
theorem bits_writeByte (d : Bool) (x : Byte) : bits d (writeByte x) = bitsMSB8 x := by
  rw [writeByte, bits_flatMap bits_shiftBit, List.flatMap_singleton']

/-- The sizes of a list of pieces of one size. -/
theorem counts_flatMap {α : Type} {f : α → List Event} {n m : Nat}
    (h : ∀ x, (f x).length = n ∧ pulseCount (f x) = m) (xs : List α) :
    (xs.flatMap f).length = n * xs.length ∧ pulseCount (xs.flatMap f) = m * xs.length := by
  induction xs with
  | nil => simp [pulseCount]
  | cons x xs ih => simp [pulseCount_append, h, ih, Nat.mul_add, Nat.add_comm]

/-! ## What a list does to the lines and to a channel -/

/-- The selects and the modes after a list that writes DAT and CLK only are those before. -/
theorem applyAll_of_sharedLinesOnly {es : List Event} (h : SharedLinesOnly es) (ls : LineState) :
    (ls.applyAll es).mode = ls.mode ∧ ∀ k, (ls.applyAll es).lat.get (.sel k) = ls.lat.get (.sel k) := by
  constructor
  · apply applyAll_mode_of_writes
    intro e he
    obtain ⟨v, h1 | h1⟩ := h e he <;> exact ⟨_, _, h1⟩
  · intro k
    apply applyAll_lat_of_not_written
    intro v hv
    obtain ⟨v', h1 | h1⟩ := h _ hv <;> cases h1

/-- A channel that is not selected receives nothing (R175). -/
theorem channelStream_of_unselected {c : ChanIdx} {es : List Event} (hs : SharedLinesOnly es) (ls : LineState)
    (h : ls.lat.get (.sel c) = selInactive) : channelStream c ls es = [] := by
  induction es generalizing ls with
  | nil => rfl
  | cons e es ih =>
    have hp : ls.pin (.sel c) ≠ .level selActive := by simp [pin_eq_level_iff, h, selInactive, selActive]
    rw [channelStream, ih fun e he => hs e (by simp [he])]
    · simp [hp]
    · obtain ⟨v, h1 | h1⟩ := hs e (by simp) <;> subst h1 <;> simp [PerLine.get_set, h]

/-- A channel that stays selected receives every clocked bit (R175). -/
theorem channelStream_of_selected {c : ChanIdx} {es : List Event} (hs : SharedLinesOnly es) (ls : LineState)
    (hm : ls.mode.get (.sel c) = .output) (h : ls.lat.get (.sel c) = selActive) :
    channelStream c ls es = bits (ls.lat.get .dat) es := by
  induction es generalizing ls with
  | nil => rfl
  | cons e es ih =>
    have hp : ls.pin (.sel c) = .level selActive := (pin_eq_level_iff _ _ _).2 ⟨hm, h⟩
    rw [channelStream, ih fun e he => hs e (by simp [he])]
    · obtain ⟨v, h1 | h1⟩ := hs e (by simp) <;> subst h1
      · simp [bits]
      · cases v <;> simp [bits, hp, PerLine.get_set]
    · obtain ⟨v, h1 | h1⟩ := hs e (by simp) <;> subst h1 <;> exact hm
    · obtain ⟨v, h1 | h1⟩ := hs e (by simp) <;> subst h1 <;> simp [PerLine.get_set, h]

/-- A list without a clock pulse gives a channel nothing (R175). -/
theorem channelStream_of_no_pulse {es : List Event} (hs : .write .clk true ∉ es) (c : ChanIdx) (ls : LineState) :
    channelStream c ls es = [] := by
  induction es generalizing ls with
  | nil => rfl
  | cons e es ih =>
    simp only [List.mem_cons, not_or] at hs
    rw [channelStream, ih hs.2]
    simp [Ne.symm hs.1]

theorem no_pulse_select (c : ChanIdx) : .write .clk true ∉ select c := by simp [select_eq]

theorem no_pulse_deselect (P : Params) (c : ChanIdx) : .write .clk true ∉ deselect P c := by
  unfold deselect
  split <;> simp [drive]

/-- The sequencer is only ever given writes (R190). -/
theorem writes_channelEvents (P : Params) (c : ChanIdx) (x : Option ChannelCfg) :
    ∀ e ∈ channelEvents P c x, ∃ l v, e = .write l v := by
  cases x with
  | none => simp [channelEvents]
  | some cfg =>
    intro e he
    simp only [channelEvents, List.mem_append] at he
    rcases he with (he | he) | he
    · simp only [select_eq, List.mem_cons, List.not_mem_nil, or_false] at he
      rcases he with rfl | rfl | rfl | rfl <;> exact ⟨_, _, rfl⟩
    · obtain ⟨v, h | h⟩ := sharedLinesOnly_frame P cfg e he <;> exact ⟨_, _, h⟩
    · unfold deselect at he
      split at he <;> simp [drive] at he
      exact ⟨_, _, he⟩

theorem writes_showEvents (P : Params) (chan : Vector (Option ChannelCfg) 4) :
    ∀ e ∈ showEvents P chan, ∃ l v, e = .write l v := by
  intro e he
  obtain ⟨c, -, hc⟩ := List.mem_flatMap.1 he
  exact writes_channelEvents P c _ e hc

/-- The trace's lines after more events (R33). -/
theorem replay_append (es fs : List Event) : replay (es ++ fs) = (replay es).applyAll fs := by
  simp [replay, applyAll_append]

end Sys2Proof.Machine
end

