-- ==== Sys2Proof/Laws/State.lean ====
section
/-! SUPPORT. One lemma per field of State and per update of it (Machine/Ops.lean, Flags.lean, Port.lean), so that no
later proof unfolds a record update. -/

namespace Sys2Proof.Machine

/-! ## respond -/

@[simp] theorem respond_chan (st : Status) (d : Data) (s : State) :
    (respond st d s).chan = s.chan := rfl
@[simp] theorem respond_initDone (st : Status) (d : Data) (s : State) :
    (respond st d s).initDone = s.initDone := rfl
@[simp] theorem respond_fault (st : Status) (d : Data) (s : State) :
    (respond st d s).fault = s.fault := rfl
@[simp] theorem respond_lines (st : Status) (d : Data) (s : State) :
    (respond st d s).lines = s.lines := rfl
@[simp] theorem respond_pending (st : Status) (d : Data) (s : State) :
    (respond st d s).pending = s.pending := rfl
@[simp] theorem respond_tr (st : Status) (d : Data) (s : State) :
    (respond st d s).tr = s.tr := rfl
@[simp] theorem respond_responses (st : Status) (d : Data) (s : State) :
    (respond st d s).responses = s.responses ++ [⟨st, d⟩] := rfl
@[simp] theorem respond_inputs (st : Status) (d : Data) (s : State) :
    (respond st d s).inputs = s.inputs := rfl
@[simp] theorem respond_resetCount (st : Status) (d : Data) (s : State) :
    (respond st d s).resetCount = s.resetCount := rfl

/-! ## raise -/

@[simp] theorem raise_chan (e : Status) (s : State) :
    (raise e s).chan = s.chan := rfl
@[simp] theorem raise_initDone (e : Status) (s : State) :
    (raise e s).initDone = s.initDone := rfl
@[simp] theorem raise_fault (e : Status) (s : State) :
    (raise e s).fault = s.fault := rfl
@[simp] theorem raise_lines (e : Status) (s : State) :
    (raise e s).lines = s.lines := rfl
@[simp] theorem raise_pending (e : Status) (s : State) :
    (raise e s).pending = s.pending := rfl
@[simp] theorem raise_tr (e : Status) (s : State) :
    (raise e s).tr = s.tr := rfl
@[simp] theorem raise_responses (e : Status) (s : State) :
    (raise e s).responses = s.responses ++ [⟨e, 0⟩] := rfl
@[simp] theorem raise_inputs (e : Status) (s : State) :
    (raise e s).inputs = s.inputs := rfl
@[simp] theorem raise_resetCount (e : Status) (s : State) :
    (raise e s).resetCount = s.resetCount := rfl

/-! ## perform -/

@[simp] theorem perform_chan (s : State) (e : Event) :
    (perform s e).chan = s.chan := rfl
@[simp] theorem perform_initDone (s : State) (e : Event) :
    (perform s e).initDone = s.initDone := rfl
@[simp] theorem perform_fault (s : State) (e : Event) :
    (perform s e).fault = s.fault := rfl
@[simp] theorem perform_lines (s : State) (e : Event) :
    (perform s e).lines = s.lines.apply e := rfl
@[simp] theorem perform_pending (s : State) (e : Event) :
    (perform s e).pending = s.pending := rfl
@[simp] theorem perform_tr (s : State) (e : Event) :
    (perform s e).tr = s.tr ++ [e] := rfl
@[simp] theorem perform_responses (s : State) (e : Event) :
    (perform s e).responses = s.responses := rfl
@[simp] theorem perform_inputs (s : State) (e : Event) :
    (perform s e).inputs = s.inputs := rfl
@[simp] theorem perform_resetCount (s : State) (e : Event) :
    (perform s e).resetCount = s.resetCount := rfl

/-! ## setInitDone -/

@[simp] theorem setInitDone_chan (s : State) :
    (setInitDone s).chan = s.chan := rfl
@[simp] theorem setInitDone_initDone (s : State) :
    (setInitDone s).initDone = true := rfl
@[simp] theorem setInitDone_fault (s : State) :
    (setInitDone s).fault = s.fault := rfl
@[simp] theorem setInitDone_lines (s : State) :
    (setInitDone s).lines = s.lines := rfl
@[simp] theorem setInitDone_pending (s : State) :
    (setInitDone s).pending = s.pending := rfl
@[simp] theorem setInitDone_tr (s : State) :
    (setInitDone s).tr = s.tr := rfl
@[simp] theorem setInitDone_responses (s : State) :
    (setInitDone s).responses = s.responses := rfl
@[simp] theorem setInitDone_inputs (s : State) :
    (setInitDone s).inputs = s.inputs := rfl
@[simp] theorem setInitDone_resetCount (s : State) :
    (setInitDone s).resetCount = s.resetCount := rfl

/-! ## setFault -/

@[simp] theorem setFault_chan (s : State) :
    (setFault s).chan = s.chan := rfl
@[simp] theorem setFault_initDone (s : State) :
    (setFault s).initDone = s.initDone := rfl
@[simp] theorem setFault_fault (s : State) :
    (setFault s).fault = true := rfl
@[simp] theorem setFault_lines (s : State) :
    (setFault s).lines = s.lines := rfl
@[simp] theorem setFault_pending (s : State) :
    (setFault s).pending = s.pending := rfl
@[simp] theorem setFault_tr (s : State) :
    (setFault s).tr = s.tr := rfl
@[simp] theorem setFault_responses (s : State) :
    (setFault s).responses = s.responses := rfl
@[simp] theorem setFault_inputs (s : State) :
    (setFault s).inputs = s.inputs := rfl
@[simp] theorem setFault_resetCount (s : State) :
    (setFault s).resetCount = s.resetCount := rfl

/-! ## resetBlock -/

@[simp] theorem resetBlock_chan (s : State) :
    (resetBlock s).chan = noChannels := rfl
@[simp] theorem resetBlock_initDone (s : State) :
    (resetBlock s).initDone = false := rfl
@[simp] theorem resetBlock_fault (s : State) :
    (resetBlock s).fault = false := rfl
@[simp] theorem resetBlock_lines (s : State) :
    (resetBlock s).lines = ⟨.const .input, .ofFn (Config.latchAfterReset s.resetCount)⟩ := rfl
@[simp] theorem resetBlock_pending (s : State) :
    (resetBlock s).pending = [] := rfl
@[simp] theorem resetBlock_tr (s : State) :
    (resetBlock s).tr = s.tr ++ [.reset] := rfl
@[simp] theorem resetBlock_responses (s : State) :
    (resetBlock s).responses = s.responses := rfl
@[simp] theorem resetBlock_inputs (s : State) :
    (resetBlock s).inputs = s.inputs := rfl
@[simp] theorem resetBlock_resetCount (s : State) :
    (resetBlock s).resetCount = s.resetCount + 1 := rfl

/-! ## offerFirst -/

@[simp] theorem offerFirst_chan (w : Word) (s : State) :
    (offerFirst w s).chan = s.chan := rfl
@[simp] theorem offerFirst_initDone (w : Word) (s : State) :
    (offerFirst w s).initDone = s.initDone := rfl
@[simp] theorem offerFirst_fault (w : Word) (s : State) :
    (offerFirst w s).fault = s.fault := rfl
@[simp] theorem offerFirst_lines (w : Word) (s : State) :
    (offerFirst w s).lines = s.lines := rfl
@[simp] theorem offerFirst_pending (w : Word) (s : State) :
    (offerFirst w s).pending = [] := rfl
@[simp] theorem offerFirst_tr (w : Word) (s : State) :
    (offerFirst w s).tr = s.tr := rfl
@[simp] theorem offerFirst_responses (w : Word) (s : State) :
    (offerFirst w s).responses = s.responses := rfl
@[simp] theorem offerFirst_inputs (w : Word) (s : State) :
    (offerFirst w s).inputs = .command w :: s.inputs := rfl
@[simp] theorem offerFirst_resetCount (w : Word) (s : State) :
    (offerFirst w s).resetCount = s.resetCount := rfl

/-! ## setChan -/

@[simp] theorem setChan_chan (s : State) (c : ChanIdx) (x : Option ChannelCfg) :
    (setChan s c x).chan = s.chan.set c x := rfl
@[simp] theorem setChan_initDone (s : State) (c : ChanIdx) (x : Option ChannelCfg) :
    (setChan s c x).initDone = s.initDone := rfl
@[simp] theorem setChan_fault (s : State) (c : ChanIdx) (x : Option ChannelCfg) :
    (setChan s c x).fault = s.fault := rfl
@[simp] theorem setChan_lines (s : State) (c : ChanIdx) (x : Option ChannelCfg) :
    (setChan s c x).lines = s.lines := rfl
@[simp] theorem setChan_pending (s : State) (c : ChanIdx) (x : Option ChannelCfg) :
    (setChan s c x).pending = s.pending := rfl
@[simp] theorem setChan_tr (s : State) (c : ChanIdx) (x : Option ChannelCfg) :
    (setChan s c x).tr = s.tr := rfl
@[simp] theorem setChan_responses (s : State) (c : ChanIdx) (x : Option ChannelCfg) :
    (setChan s c x).responses = s.responses := rfl
@[simp] theorem setChan_inputs (s : State) (c : ChanIdx) (x : Option ChannelCfg) :
    (setChan s c x).inputs = s.inputs := rfl
@[simp] theorem setChan_resetCount (s : State) (c : ChanIdx) (x : Option ChannelCfg) :
    (setChan s c x).resetCount = s.resetCount := rfl

/-! ## The state at power-on -/

@[simp] theorem reset_chan : State.reset.chan = noChannels := rfl
@[simp] theorem reset_initDone : State.reset.initDone = false := rfl
@[simp] theorem reset_fault : State.reset.fault = false := rfl
@[simp] theorem reset_lines : State.reset.lines = powerOnLines := rfl
@[simp] theorem reset_pending : State.reset.pending = [] := rfl
@[simp] theorem reset_tr : State.reset.tr = [] := rfl
@[simp] theorem reset_responses : State.reset.responses = [] := rfl
@[simp] theorem reset_inputs : State.reset.inputs = [] := rfl

/-- Two states that agree on every field are equal. -/
theorem State.ext_fields {s t : State} (hc : s.chan = t.chan) (hi : s.initDone = t.initDone)
    (hf : s.fault = t.fault) (hl : s.lines = t.lines) (hp : s.pending = t.pending) (ht : s.tr = t.tr)
    (hr : s.responses = t.responses) (hin : s.inputs = t.inputs) (hn : s.resetCount = t.resetCount) : s = t := by
  cases s; cases t; simp_all

@[simp] theorem chanAt_noChannels (c : ChanIdx) : chanAt noChannels c = none := by simp [chanAt, noChannels]

end Sys2Proof.Machine
end

