-- ==== Sys2Proof/Laws/Ops.lean ====
section
/-! SUPPORT. What each shared operation does, said once: line events, the sequencer, the pixel store, the operand
checks. -/

namespace Sys2Proof.Machine

/-- Performing a list changes the lines and the trace, and nothing else. -/
theorem performAll_eq (s : State) (es : List Event) :
    performAll s es = { s with lines := s.lines.applyAll es, tr := s.tr ++ es } := by
  induction es generalizing s with
  | nil => simp [performAll]
  | cons e es ih =>
    show performAll (perform s e) es = _
    rw [ih]
    simp [perform]

theorem unlessFaulted_of_fault {s : State} (h : s.fault = true) (act : State → State) :
    unlessFaulted s act = raise .faulted s := by simp [unlessFaulted, h]

theorem unlessFaulted_of_no_fault {s : State} (h : s.fault = false) (act : State → State) :
    unlessFaulted s act = act s := by simp [unlessFaulted, h]

@[simp] theorem busy_eq_false_iff (s : State) : busy s = false ↔ s.pending = [] := by
  simp [busy]

/-- With nothing pending the sequencer does nothing. -/
theorem sequencerStep_idle {s : State} (h : s.pending = []) : sequencerStep s = s := by
  simp [sequencerStep, h]

/-- A sequencer step performs the head of PENDING, and answers when it was the last event. -/
theorem sequencerStep_cons {s : State} {e : Event} {rest : List Event} (h : s.pending = e :: rest) :
    sequencerStep s =
      { s with
        pending := rest
        lines := s.lines.apply e
        tr := s.tr ++ [e]
        responses := s.responses ++ if rest = [] then [⟨.ok, 0⟩] else [] } := by
  unfold sequencerStep
  rw [h]
  cases rest <;> simp [perform, respond]

/-- SHOW's acceptance: PENDING is the list, and the response is given at once only if the list is empty. -/
theorem startShow_eq (es : List Event) (s : State) :
    startShow es s =
      { s with pending := es, responses := s.responses ++ if es = [] then [⟨.ok, 0⟩] else [] } := by
  cases es <;> simp [startShow, respond]

/-- CH is valid exactly when it is one more than the channel index it gives (R73). -/
theorem channelIndex_eq_some_iff (ch : Byte) (c : ChanIdx) :
    channelIndex ch = some c ↔ ch.toNat = c.val + 1 := by
  unfold channelIndex
  have hc := c.isLt
  have hn : numChannels = 4 := rfl
  split
  · rename_i h
    simp only [Option.some.injEq, Fin.ext_iff]
    omega
  · rename_i h
    simp only [false_iff, reduceCtorEq]
    omega

/-- CH is invalid exactly when it lies outside 1 to 4 (R73). -/
theorem channelIndex_eq_none_iff (ch : Byte) : channelIndex ch = none ↔ ch.toNat < 1 ∨ 4 < ch.toNat := by
  unfold channelIndex
  have hn : numChannels = 4 := rfl
  split <;> rename_i h <;> simp only [reduceCtorEq, false_iff, true_iff] <;> omega

theorem countFits_iff (n : Byte) : countFits n = true ↔ n.toNat ≤ 16 := decide_eq_true_iff

/-- Everything the operand checks of SETPX and RDPX can answer (R242). -/
theorem locate_cases (s : State) (ch ix : Byte) :
    (channelIndex ch = none ∧ locate s ch ix = .error .invalidChannel) ∨
      ∃ c, channelIndex ch = some c ∧
        ((chanAt s.chan c = none ∧ locate s ch ix = .error .channelNotConfigured) ∨
          ∃ cfg, chanAt s.chan c = some cfg ∧
            ((cfg.pix.length ≤ ix.toNat ∧ locate s ch ix = .error .indexOutOfRange) ∨
              ∃ h : ix.toNat < cfg.pix.length, locate s ch ix = .at c cfg.pix[ix.toNat])) := by
  unfold locate
  cases hi : channelIndex ch with
  | none => simp
  | some c =>
    refine .inr ⟨c, rfl, ?_⟩
    cases hc : chanAt s.chan c with
    | none => exact .inl ⟨rfl, by simp only [hc]⟩
    | some cfg =>
      refine .inr ⟨cfg, rfl, ?_⟩
      by_cases h : ix.toNat < cfg.pix.length
      · exact .inr ⟨h, by simp [pixRead, hc, h]⟩
      · exact .inl ⟨by omega, by simp [pixRead, hc, List.getElem?_eq_none (Nat.le_of_not_lt h)]⟩

/-- PixWrite replaces one pixel of a configured channel (R51). -/
theorem pixWrite_eq {s : State} {c : ChanIdx} {cfg : ChannelCfg} (h : chanAt s.chan c = some cfg) (i : Nat) (p : Pixel) :
    pixWrite s c i p = setChan s c (some { cfg with pix := cfg.pix.set i p }) := by
  simp [pixWrite, h]

/-- Reading a channel after one was replaced. -/
theorem chanAt_set (v : Vector (Option ChannelCfg) 4) (c c' : ChanIdx) (x : Option ChannelCfg) :
    chanAt (v.set c x) c' = if c' = c then x else chanAt v c' := by
  simp [chanAt, Vector.getElem_set, Fin.ext_iff, eq_comm]

end Sys2Proof.Machine
end

