-- ==== Sys2Proof/Laws/PerInstr.lean ====
section
/-! SUPPORT. A statement about every instruction, one lemma per constructor: its word selects its own row of the opcode
table, and no row of another name (30_encoding R77). -/

namespace Sys2Proof.Laws.TableRow

/-- The encoding of a command selects the row that bears its mnemonic, and only that row (R77). -/
def Statement (i : Instr) : Prop :=
  ∀ row ∈ opcodeTable, row.selects (encode i) = (row.mnemonic == i.mnemonic)

/-- A word is kept by a mask when it has no bit outside it. -/
theorem and_eq_iff_getLsbD (w mask fixed : Word) :
    (w &&& mask == fixed) = true ↔ ∀ i < 64, (w.getLsbD i && mask.getLsbD i) = fixed.getLsbD i := by
  rw [beq_iff_eq]
  constructor
  · rintro rfl i hi
    simp
  · intro h
    apply BitVec.eq_of_getLsbD_eq
    intro i hi
    simpa using h i hi

/-- Every row fixes OP: a row whose OP is not the word's does not select it. -/
theorem selects_eq_false_of_op {w mask fixed : Word} (hm : opField mask = 0xFF#8)
    (h : opField w ≠ opField fixed) : (w &&& mask == fixed) = false := by
  rw [beq_eq_false_iff_ne]
  rintro rfl
  apply h
  unfold opField at *
  rw [BitVec.extractLsb'_and, hm]
  exact BitVec.and_allOnes.symm

theorem nop : Statement .nop := by unfold Statement; decide
theorem init : Statement .init := by unfold Statement; decide
theorem showCmd : Statement .showCmd := by unfold Statement; decide
theorem rdstat : Statement .rdstat := by unfold Statement; decide

theorem cfg (ch n : Byte) (gm : Bool) : Statement (.cfg ch n gm) := by
  have self : (packFields 0x02 ch n gm 0 0 0 &&& 0xFF0000FEFFFFFFFF == (0x0200000000000000 : Word)) = true := by
    rw [and_eq_iff_getLsbD]
    intro i hi
    simp only [packFields]
    interval_cases i <;> simp
  simp only [Statement, opcodeTable, List.forall_mem_cons, List.not_mem_nil, OpcodeRow.selects, encode, self,
    Instr.mnemonic]
  refine ⟨?_, ?_, rfl, ?_, ?_, ?_, ?_, ?_, by simp⟩ <;>
    exact selects_eq_false_of_op (by decide) (by rw [opField_packFields]; decide)

theorem setpx (ch ix r g b : Byte) : Statement (.setpx ch ix r g b) := by
  have self : (packFields 0x03 ch ix false r g b &&& 0xFF0000FFFF000000 == (0x0300000000000000 : Word)) = true := by
    rw [and_eq_iff_getLsbD]
    intro i hi
    simp only [packFields]
    interval_cases i <;> simp
  simp only [Statement, opcodeTable, List.forall_mem_cons, List.not_mem_nil, OpcodeRow.selects, encode, self,
    Instr.mnemonic]
  refine ⟨?_, ?_, ?_, rfl, ?_, ?_, ?_, ?_, by simp⟩ <;>
    exact selects_eq_false_of_op (by decide) (by rw [opField_packFields]; decide)

theorem rdpx (ch ix : Byte) : Statement (.rdpx ch ix) := by
  have self : (packFields 0x05 ch ix false 0 0 0 &&& 0xFF0000FFFFFFFFFF == (0x0500000000000000 : Word)) = true := by
    rw [and_eq_iff_getLsbD]
    intro i hi
    simp only [packFields]
    interval_cases i <;> simp
  simp only [Statement, opcodeTable, List.forall_mem_cons, List.not_mem_nil, OpcodeRow.selects, encode, self,
    Instr.mnemonic]
  refine ⟨?_, ?_, ?_, ?_, ?_, rfl, ?_, ?_, by simp⟩ <;>
    exact selects_eq_false_of_op (by decide) (by rw [opField_packFields]; decide)

theorem rdcfg (ch : Byte) : Statement (.rdcfg ch) := by
  have self : (packFields 0x06 ch 0 false 0 0 0 &&& 0xFF00FFFFFFFFFFFF == (0x0600000000000000 : Word)) = true := by
    rw [and_eq_iff_getLsbD]
    intro i hi
    simp only [packFields]
    interval_cases i <;> simp
  simp only [Statement, opcodeTable, List.forall_mem_cons, List.not_mem_nil, OpcodeRow.selects, encode, self,
    Instr.mnemonic]
  refine ⟨?_, ?_, ?_, ?_, ?_, ?_, rfl, ?_, by simp⟩ <;>
    exact selects_eq_false_of_op (by decide) (by rw [opField_packFields]; decide)

end Sys2Proof.Laws.TableRow
end

