-- ==== Sys2Proof/Laws/Step.lean ====
section
/-! SUPPORT. Everything a step can do, and everything a command can do, said once. -/

namespace Sys2Proof.Machine

/-! ## What the port decides -/

theorem step_of_no_inputs {s : State} (h : s.inputs = []) : step s = .next (sequencerStep s) := by
  simp [step, poll, h]

theorem step_of_idle {s : State} {rest : List HostInput} (h : s.inputs = .idle :: rest) :
    step s = .next (sequencerStep { s with inputs := rest }) := by
  simp [step, poll, h]

theorem step_of_reset {s : State} {o : Option Word} {rest : List HostInput} (h : s.inputs = .reset o :: rest) :
    step s = .next (resetBlock { s with inputs := rest }) := by
  simp [step, poll, h]

theorem step_of_held {s : State} {w : Word} {rest : List HostInput} (h : s.inputs = .command w :: rest)
    (hb : s.pending ≠ []) : step s = .next (sequencerStep s) := by
  simp [step, poll, h, busy, hb]

theorem step_of_command {s : State} {w : Word} {rest : List HostInput} {i : Instr}
    (h : s.inputs = .command w :: rest) (hb : s.pending = []) (hd : decode w = .command i) :
    step s = exec i { s with inputs := rest } := by
  simp [step, poll, h, busy, hb, takeCommand, hd]

theorem step_of_illegal {s : State} {w : Word} {rest : List HostInput} {why : Illegal}
    (h : s.inputs = .command w :: rest) (hb : s.pending = []) (hd : decode w = .illegal why) :
    step s = .next (raise .illegalCommand { s with inputs := rest }) := by
  simp [step, poll, h, busy, hb, takeCommand, hd]

/-- Everything a step can do: a sequencer step (nothing, when nothing is pending), which may use up an idle input; a
reset; an Illegal word answered; or a command run on a free port. -/
theorem step_cases (s : State) :
    (step s = .next (sequencerStep s) ∧ (s.inputs = [] ∨ ∃ w rest, s.inputs = .command w :: rest ∧ s.pending ≠ [])) ∨
      (∃ rest, s.inputs = .idle :: rest ∧ step s = .next (sequencerStep { s with inputs := rest })) ∨
      (∃ o rest, s.inputs = .reset o :: rest ∧ step s = .next (resetBlock { s with inputs := rest })) ∨
      (∃ w rest why, s.inputs = .command w :: rest ∧ s.pending = [] ∧ decode w = .illegal why ∧
        step s = .next (raise .illegalCommand { s with inputs := rest })) ∨
      ∃ w rest i, s.inputs = .command w :: rest ∧ s.pending = [] ∧ decode w = .command i ∧
        step s = exec i { s with inputs := rest } := by
  cases h : s.inputs with
  | nil => exact .inl ⟨step_of_no_inputs h, .inl rfl⟩
  | cons x rest =>
    cases x with
    | idle => exact .inr (.inl ⟨rest, rfl, step_of_idle h⟩)
    | reset o => exact .inr (.inr (.inl ⟨o, rest, rfl, step_of_reset h⟩))
    | command w =>
      by_cases hb : s.pending = []
      · cases hd : decode w with
        | illegal why => exact .inr (.inr (.inr (.inl ⟨w, rest, why, rfl, hb, hd, step_of_illegal h hb hd⟩)))
        | command i => exact .inr (.inr (.inr (.inr ⟨w, rest, i, rfl, hb, hd, step_of_command h hb hd⟩)))
      · exact .inl ⟨step_of_held h hb, .inr ⟨w, rest, rfl, hb⟩⟩

/-! ## What a command does -/

/-- Everything a command can do: it is refused with Faulted; it answers an error of its operands and changes nothing; a
read answers a value and changes nothing; NOP answers OK; CFG replaces a channel; SETPX replaces a pixel; INIT performs its events; SHOW's list is accepted,
or refused before INIT, which sets FAULT. -/
theorem exec_cases (i : Instr) (s : State) :
    (s.fault = true ∧ i ≠ .rdstat ∧ exec i s = .next (raise .faulted s)) ∨
      (∃ e, i.isStorage = true ∧ e ≠ .ok ∧ e ≠ .notInitialized ∧ s.fault = false ∧ exec i s = .next (raise e s)) ∨
      (∃ d, i.isRead = true ∧ exec i s = .next (respond .ok d s)) ∨
      (i = .nop ∧ s.fault = false ∧ exec i s = .next (respond .ok 0 s)) ∨
      (∃ ch n gm c, i = .cfg ch n gm ∧ s.fault = false ∧ channelIndex ch = some c ∧ n.toNat ≤ 16 ∧
        exec i s = .next (respond .ok 0 (setChan s c (some (freshChannel n.toNat gm))))) ∨
      (∃ ch ix r g b c cfg, i = .setpx ch ix r g b ∧ s.fault = false ∧ channelIndex ch = some c ∧
        chanAt s.chan c = some cfg ∧ ix.toNat < cfg.pix.length ∧
        exec i s =
          .next (respond .ok 0 (setChan s c (some { cfg with pix := cfg.pix.set ix.toNat ⟨r, g, b⟩ })))) ∨
      (i = .init ∧ s.fault = false ∧ exec i s = .next (respond .ok 0 (setInitDone (performAll s initEvents)))) ∨
      (i = .showCmd ∧ s.fault = false ∧ s.initDone = true ∧
        exec i s = .next (startShow (showEvents Config.params s.chan) s)) ∨
      (i = .showCmd ∧ s.fault = false ∧ s.initDone = false ∧
        exec i s = .next (raise .notInitialized (setFault s))) := by
  by_cases hrd : i = .rdstat
  · subst hrd
    exact .inr (.inr (.inl ⟨_, rfl, rfl⟩))
  cases hf : s.fault with
  | true =>
    refine .inl ⟨rfl, hrd, ?_⟩
    cases i <;>
      simp_all [exec, execNop, execInit, execCfg, execSetpx, execShowCmd, execRdpx, execRdcfg, unlessFaulted_of_fault]
  | false =>
    refine .inr ?_
    cases i with
    | nop => exact .inr (.inr (.inl ⟨rfl, rfl, by simp [exec, execNop, unlessFaulted_of_no_fault hf]⟩))
    | init => simp [exec, execInit, unlessFaulted_of_no_fault hf]
    | rdstat => exact absurd rfl hrd
    | showCmd => cases h : s.initDone <;> simp [exec, execShowCmd, unlessFaulted_of_no_fault hf, h]
    | cfg ch n gm =>
      simp only [exec, execCfg, unlessFaulted_of_no_fault hf]
      cases hc : channelIndex ch with
      | none => exact .inl ⟨.invalidChannel, rfl, by simp, by simp, trivial, rfl⟩
      | some c =>
        cases hn : countFits n with
        | false => exact .inl ⟨.tooManyPixels, rfl, by simp, by simp, trivial, rfl⟩
        | true => exact .inr (.inr (.inr (.inl ⟨ch, n, gm, c, rfl, trivial, hc, (countFits_iff n).1 hn, rfl⟩)))
    | rdcfg ch =>
      simp only [exec, execRdcfg, unlessFaulted_of_no_fault hf]
      cases hc : channelIndex ch with
      | none => exact .inl ⟨.invalidChannel, rfl, by simp, by simp, trivial, rfl⟩
      | some c => exact .inr (.inl ⟨_, rfl, rfl⟩)
    | rdpx ch ix =>
      simp only [exec, execRdpx, unlessFaulted_of_no_fault hf]
      rcases locate_cases s ch ix with ⟨-, h⟩ | ⟨c, -, ⟨-, h⟩ | ⟨cfg, -, ⟨-, h⟩ | ⟨hlt, h⟩⟩⟩ <;> rw [h]
      · exact .inl ⟨.invalidChannel, rfl, by simp, by simp, trivial, rfl⟩
      · exact .inl ⟨.channelNotConfigured, rfl, by simp, by simp, trivial, rfl⟩
      · exact .inl ⟨.indexOutOfRange, rfl, by simp, by simp, trivial, rfl⟩
      · exact .inr (.inl ⟨_, rfl, rfl⟩)
    | setpx ch ix r g b =>
      simp only [exec, execSetpx, unlessFaulted_of_no_fault hf]
      rcases locate_cases s ch ix with ⟨-, h⟩ | ⟨c, hc, ⟨-, h⟩ | ⟨cfg, hcfg, ⟨-, h⟩ | ⟨hlt, h⟩⟩⟩ <;> rw [h]
      · exact .inl ⟨.invalidChannel, rfl, by simp, by simp, trivial, rfl⟩
      · exact .inl ⟨.channelNotConfigured, rfl, by simp, by simp, trivial, rfl⟩
      · exact .inl ⟨.indexOutOfRange, rfl, by simp, by simp, trivial, rfl⟩
      · exact .inr (.inr (.inr (.inr (.inl
          ⟨ch, ix, r, g, b, c, cfg, rfl, trivial, hc, hcfg, hlt, by simp only [pixWrite_eq hcfg]⟩))))

/-! ## Invariants -/

/-- A predicate that the sequencer, the commands, a reset, a response and a change of the inputs keep is kept by every
step. -/
theorem step_keeps {I : State → Prop} (hseq : ∀ s, I s → I (sequencerStep s))
    (hin : ∀ s inputs, I s → I { s with inputs := inputs }) (hreset : ∀ s, I s → I (resetBlock s))
    (hexec : ∀ i s t, I s → s.pending = [] → exec i s = .next t → I t)
    (hresp : ∀ s st d, I s → I (respond st d s)) {s t : State} (hI : I s) (hst : step s = .next t) : I t := by
  rcases step_cases s with ⟨h, _⟩ | ⟨rest, _, h⟩ | ⟨_, rest, _, h⟩ | ⟨_, rest, _, _, _, _, h⟩ | ⟨w, rest, i, _, hp, _, h⟩ <;>
    rw [h] at hst
  · cases hst
    exact hseq _ hI
  · cases hst
    exact hseq _ (hin s rest hI)
  · cases hst
    exact hreset _ (hin s rest hI)
  · cases hst
    exact hresp _ _ _ (hin s rest hI)
  · exact hexec i _ _ (hin s rest hI) hp hst

/-- The lines after INIT's events, whatever they were (R221). -/
theorem applyAll_initEvents (ls : LineState) :
    ls.applyAll initEvents =
      { mode := { dat := .output, clk := .output, sel := #v[.output, .output, .output, .output] }
        lat := { dat := false, clk := false, sel := #v[true, true, true, true] } } := by
  have four : ∀ {α : Type} (v : Vector α 4) (a b c d : α), (((v.set 0 a).set 1 b).set 2 c).set 3 d = #v[a, b, c, d] := by
    intro α v a b c d
    ext i hi
    interval_cases i <;> simp
  simp [initEvents, drive, allChannels, allLines, LineState.applyAll, LineState.apply, PerLine.set, selInactive, four]

/-! ## Runs -/

@[simp] theorem run_zero (s : State) : core.run 0 s = .next s := rfl

/-- A run goes on from the state the first step gives. -/
theorem run_succ {s t : State} (h : step s = .next t) (k : Nat) : core.run (k + 1) s = core.run k t := by
  have hc : core.step s = .next t := h
  simp only [Host.Core.run, hc]

/-- A run of j + k steps is a run of j and then one of k. -/
theorem run_add {s t : State} {j : Nat} (h : core.run j s = .next t) (k : Nat) : core.run (j + k) s = core.run k t := by
  induction j generalizing s with
  | zero =>
    cases h
    rw [Nat.zero_add]
  | succ j ih =>
    rw [Nat.succ_add]
    cases hs : core.step s with
    | next u =>
      have hu : step s = .next u := hs
      rw [run_succ hu] at h ⊢
      exact ih h
    | fault r => simp only [Host.Core.run, hs, reduceCtorEq] at h
    | refused r => simp only [Host.Core.run, hs, reduceCtorEq] at h

end Sys2Proof.Machine
end

