-- ==== Sys2Proof/Tests/Slice0.lean ====
section
/-! SUPPORT. Small tests, with expected results from 95_test_vectors, and for every statement that has hypotheses a named
witness that meets them. B = 15 where a vector shows a concrete header, as in 95_test_vectors. -/

namespace Sys2Proof.Tests

open Sys2Proof Sys2Proof.Machine

/-! ## Small states -/

/-- Channel 1 holds the pixel (1, 2, 3), channel 2 is configured and empty, channel 3 ABSENT, channel 4 full. -/
def stored : State :=
  { State.reset with
    chan := #v[some ⟨false, [⟨1, 2, 3⟩]⟩, some ⟨true, []⟩, none, some ⟨true, List.replicate 16 ⟨0, 0, 0⟩⟩] }

/-- The lines right after INIT (R221). -/
def initLines : LineState :=
  { mode := { dat := .output, clk := .output, sel := #v[.output, .output, .output, .output] }
    lat := { dat := false, clk := false, sel := #v[true, true, true, true] } }

/-- `stored`, initialised. -/
def booted : State := { stored with initDone := true, lines := initLines, tr := initEvents }

/-- Initialised, with no channel configured. -/
def bare : State := { booted with chan := noChannels }

/-- `stored`, with FAULT = 1. -/
def faulted : State := { stored with fault := true }

/-- In the last clock pulse of a SHOW. -/
def showing : State := { booted with pending := [.write .clk true, .write .clk false] }

/-- Only channel index 2 configured, and empty (V-E7). -/
def lone : Vector (Option ChannelCfg) 4 := #v[none, none, some ⟨false, []⟩, none]

/-- The parameters of the vectors: B = 15, and the illustrative GAMMA_FN of T6. -/
def demo : Params := ⟨15, fun x => x >>> 1, false⟩

/-- R10: DESELECT_AFTER_FRAME is 0 unless it is given. -/
theorem test_deselect_default : ({ brightness := 15, gammaFn := id } : Params).deselectAfterFrame = false := by decide

/-- The responses in the next state. -/
def answers : Host.Outcome State Fault Refusal → Option (List Response)
  | .next s => some s.responses
  | .fault _ => none
  | .refused _ => none

/-- The channels in the next state. -/
def channels : Host.Outcome State Fault Refusal → Option (List (Option ChannelCfg))
  | .next s => some s.chan.toList
  | .fault _ => none
  | .refused _ => none

/-! ## Ill-formed terms -/

theorem test_wf_negative_count : (AsmLine.cfg 1 (-1) 0).wf = false := by decide
theorem test_wf_gamma_two : (AsmLine.cfg 1 1 2).wf = false := by decide
theorem test_wf_negative_count_short : (AsmLine.cfgNoGamma 1 (-1)).wf = false := by decide
theorem test_wf_negative_index_setpx : (AsmLine.setpx 1 (-1) 0 0 0).wf = false := by decide
theorem test_wf_negative_index_clrpx : (AsmLine.clrpx 1 (-1)).wf = false := by decide
theorem test_wf_negative_index_rdpx : (AsmLine.rdpx 1 (-1)).wf = false := by decide
theorem test_wf_any_colour : (AsmLine.setpx (-7) 300 (-1) 256 0x1FF).wf = true := by decide
theorem test_wf_every_instruction : (Instr.setpx 200 255 1 2 3).wf = true := by decide

/-! ## Decoding: T1 and R86, word by word -/

theorem test_decode_nop : decode 0x0000000000000000 = .command .nop := by decide
theorem test_decode_init : decode 0x0100000000000000 = .command .init := by decide
theorem test_decode_cfg : decode 0x0202010100000000 = .command (.cfg 2 1 true) := by decide
theorem test_decode_cfg_wide : decode 0x0280FF0000000000 = .command (.cfg 128 255 false) := by decide
theorem test_decode_setpx : decode 0x03040F0000123456 = .command (.setpx 4 15 0x12 0x34 0x56) := by decide
theorem test_decode_show : decode 0x0400000000000000 = .command .showCmd := by decide
theorem test_decode_rdpx : decode 0x0502000000000000 = .command (.rdpx 2 0) := by decide
theorem test_decode_rdcfg : decode 0x0603000000000000 = .command (.rdcfg 3) := by decide
theorem test_decode_rdstat : decode 0x0700000000000000 = .command .rdstat := by decide
theorem test_wf_is_what_binds :
    (bindLine (.cfg 1 1 2)).isSome = (AsmLine.cfg 1 1 2).wf ∧ (bindLine (.setpx (-7) 300 (-1) 256 0x1FF)).isSome = true := by
  decide

theorem test_decode_rejects_nop_ch : decode 0x0001000000000000 = .illegal .unusedBitSet := by decide
theorem test_decode_rejects_nop_b : decode 0x0000000000000001 = .illegal .unusedBitSet := by decide
theorem test_decode_rejects_cfg_rsv1 : decode 0x0202010200000000 = .illegal .unusedBitSet := by decide
theorem test_decode_rejects_cfg_b : decode 0x0202010000000001 = .illegal .unusedBitSet := by decide
theorem test_decode_rejects_setpx_gm : decode 0x0304000100000000 = .illegal .unusedBitSet := by decide
theorem test_decode_rejects_setpx_rsv2 : decode 0x0304000001000000 = .illegal .unusedBitSet := by decide
theorem test_decode_rejects_setpx_shifted : decode 0x030100800040FF00 = .illegal .unusedBitSet := by decide
theorem test_decode_rejects_rdpx_b : decode 0x0502000000000001 = .illegal .unusedBitSet := by decide
theorem test_decode_rejects_rdcfg_ix : decode 0x0603010000000000 = .illegal .unusedBitSet := by decide
theorem test_decode_rejects_rdstat_g : decode 0x0700000000000100 = .illegal .unusedBitSet := by decide
theorem test_decode_rejects_show_ch : decode 0x0401000000000000 = .illegal .unusedBitSet := by decide
theorem test_decode_rejects_op8 : decode 0x0800000000000000 = .illegal .reservedOpcode := by decide
theorem test_decode_rejects_ones : decode 0xFFFFFFFFFFFFFFFF = .illegal .reservedOpcode := by decide
theorem test_decodeTableWord : decodeTableWord 64 0x0603000000000000 = some (.rdcfg 3) := by decide
theorem test_decodeTableWord_rejects : decodeTableWord 64 0xFF00000000000000 = none := by decide

/-! ## The host's side: V-E6, R83, R85, and lines of L3 -/

theorem test_assemble_masks : assemble (.setpx 1 0 (-1) 256 300) = some 0x0301000000FF002C := by decide
theorem test_assemble_saturates : assemble (.cfg 1 1000 0) = some 0x0201FF0000000000 := by decide
theorem test_assemble_bad_channel : assemble (.cfg (-3) 1 0) = some 0x0200010000000000 := by decide
theorem test_assemble_clrpx : assemble (.clrpx 1 1) = some 0x0301010000000000 := by decide

theorem test_parse_setpx :
    parseLine "SETPX  2, 0, 0x12, 0x34, 0x56     ; a comment".toList = .command (.setpx 2 0 0x12 0x34 0x56) := by
  decide +kernel

theorem test_parse_lower_case : parseLine "cfg 1, 1000".toList = .command (.cfgNoGamma 1 1000) := by decide
theorem test_parse_rejects : parseLine "SHOW 1".toList = .syntaxError := by decide

/-! ## The commands: T2, T3, T4, T9 -/

theorem test_nop : answers (exec .nop State.reset) = some [⟨.ok, 0⟩] := by decide
theorem test_nop_faulted : answers (exec .nop faulted) = some [⟨.faulted, 0⟩] := by decide

/-- T9: INIT's events. -/
theorem test_init :
    initEvents = [.setup, .write .dat false, .write .clk false, .write (.sel 0) true, .write (.sel 1) true,
      .write (.sel 2) true, .write (.sel 3) true, .modeOut .dat, .modeOut .clk, .modeOut (.sel 0), .modeOut (.sel 1),
      .modeOut (.sel 2), .modeOut (.sel 3)] := by decide

theorem test_init_lines : exec .init stored = .next { booted with responses := [⟨.ok, 0⟩] } := rfl

/-- T2: gamma is replaced. -/
theorem test_cfg :
    channels (exec (.cfg 2 1 false) stored) =
      some [some ⟨false, [⟨1, 2, 3⟩]⟩, some ⟨false, [⟨0, 0, 0⟩]⟩, none, chanAt stored.chan 3] := by decide

/-- T2: `CFG 0, 200, 0` is InvalidChannel, not TooManyPixels. -/
theorem test_cfg_order : answers (exec (.cfg 0 200 false) State.reset) = some [⟨.invalidChannel, 0⟩] := by decide

theorem test_setpx :
    channels (exec (.setpx 1 0 0xFF 0 0x2C) stored) =
      some [some ⟨false, [⟨0xFF, 0, 0x2C⟩]⟩, some ⟨true, []⟩, none, chanAt stored.chan 3] := by decide

/-- T3: `SETPX 2, 99, ...` with channel 2 absent (here 3) is ChannelNotConfigured, not IndexOutOfRange. -/
theorem test_setpx_order : answers (exec (.setpx 3 99 1 1 1) stored) = some [⟨.channelNotConfigured, 0⟩] := by decide

theorem test_rdpx : answers (exec (.rdpx 1 0) stored) = some [⟨.ok, 0x00010203⟩] := by decide
theorem test_rdpx_order : answers (exec (.rdpx 9 9) stored) = some [⟨.invalidChannel, 0⟩] := by decide
theorem test_rdcfg_full : answers (exec (.rdcfg 4) stored) = some [⟨.ok, 0x000000B0⟩] := by decide
theorem test_rdcfg_absent : answers (exec (.rdcfg 3) stored) = some [⟨.ok, 0⟩] := by decide

/-- T9: RDSTAT at B = 15, after INIT and under FAULT. -/
theorem test_rdstat_views : statView 15 false true = 0x00000F01 ∧ statView 15 true false = 0x00000F02 := by decide

theorem test_rdstat_no_brightness_lost : statView 31 false false = 0x00001F00 := by decide
theorem test_show_before_init : answers (exec .showCmd stored) = some [⟨.notInitialized, 0⟩] := by decide
theorem test_show_of_nothing : answers (exec .showCmd bare) = some [⟨.ok, 0⟩] := by decide

/-- R84: the packed response. -/
theorem test_pack : (Response.pack ⟨.faulted, 0xFFFFFFFF⟩) = 0x00000007FFFFFFFF := by decide

/-! ## The framer and the selector: T5, T6, T7, T8 -/

theorem test_writeByte : bits true (writeByte 0xA5) = [true, false, true, false, false, true, false, true] := by decide
theorem test_hdr : hdr demo = 0xEF ∧ hdr { demo with brightness := 31 } = 0xFF := by decide

/-- T5: `pixelOut((1, 2, 3), 0)`. -/
theorem test_pixelOut :
    bits false (pixelOut demo ⟨1, 2, 3⟩ false) =
      [true, true, true, false, true, true, true, true, false, false, false, false, false, false, true, true,
       false, false, false, false, false, false, true, false, false, false, false, false, false, false, false, true] := by
  decide

/-- T6: gamma on: 0xFF, 0x40, 0x80 become 0x7F, 0x20, 0x40, in the order blue, green, red. -/
theorem test_gamma :
    pixelOut demo ⟨0x80, 0x40, 0xFF⟩ true =
      writeByte 0xEF ++ writeByte 0x7F ++ writeByte 0x20 ++ writeByte 0x40 := by decide

theorem test_marker_sizes : sof.length = 65 ∧ eof.length = 73 ∧ (frame demo ⟨false, [⟨0, 0, 0⟩]⟩).length = 234 := by
  decide +kernel

theorem test_select :
    select 2 = [.write (.sel 0) true, .write (.sel 1) true, .write (.sel 2) false, .write (.sel 3) true] := by decide

theorem test_deselect : deselect { demo with deselectAfterFrame := true } 2 = [.write (.sel 2) true] := by decide

/-- T8: one empty channel. -/
theorem test_show_counts : (showEvents demo lone).length = 142 ∧ pulseCount (showEvents demo lone) = 68 := by
  decide +kernel

/-- T7, R176: with SEL3 = 0 before, `select(0)` passes through a state with two lines at 0. -/
theorem test_select_transient :
    let ls := { initLines with lat := { initLines.lat with sel := #v[true, true, true, false] } }
    waveform (.sel 3) ls (select 0) = [.level false, .level false, .level false, .level true] ∧
      waveform (.sel 0) ls (select 0) = [.level false, .level false, .level false, .level false] := by decide

/-! ## The step -/

/-- A word placed for the next step is taken by it: `RDPX 1, 0` (V-E1). -/
theorem test_withFetchWord : answers (step (stored.withFetchWord 64 0x0501000000000000)) = some [⟨.ok, 0x00010203⟩] := by
  decide

theorem test_withFetchWord_busy : answers (step (showing.withFetchWord 64 0)) = some [⟨.ok, 0⟩] := by decide

/-- The step that empties PENDING gives the SHOW's response (R34). -/
theorem test_sequencer : answers (step showing) = some [] ∧ answers (core.run 2 showing) = some [⟨.ok, 0⟩] := by decide

/-! ## Witnesses: encoding -/

theorem test_witness_EncodeOfDecode :
    decode 0x0304FF0000FFFFFF = .command (.setpx 4 255 255 255 255) ∧
      decode 0x0204FF0100000000 = .command (.cfg 4 255 true) := by decide

theorem test_witness_TableDecidesDecoding :
    (∃ r ∈ opcodeTable, r.selects 0x0202010100000000 = true) ∧
      ∀ r ∈ opcodeTable, r.selects 0x0202010200000000 = false := by decide

/-- A reserved opcode at both ends of its range, FAULT either way. -/
theorem test_witness_IllegalWordsAnswered_reserved :
    let s := { faulted with inputs := [.command 0x0800000000000000] }
    let t := { stored with inputs := [.command 0xFF00000000000000] }
    s.inputs = .command 0x0800000000000000 :: [] ∧ s.pending = [] ∧ 8 ≤ (opField 0x0800000000000000).toNat ∧
      t.inputs = .command 0xFF00000000000000 :: [] ∧ t.pending = [] ∧ 8 ≤ (opField 0xFF00000000000000).toNat := by decide

theorem test_witness_IllegalWordsAnswered_unused :
    let s := { faulted with inputs := [.command 0x0401000000000000] }
    s.inputs = .command 0x0401000000000000 :: [] ∧ s.pending = [] ∧ unusedBitSet 0x0401000000000000 :=
  ⟨rfl, rfl, by unfold unusedBitSet; decide⟩

/-- A set bit of each kind that `unusedBitSet` names, RSV1 at both its ends. -/
theorem test_witness_unusedBitSet :
    unusedBitSet 0x0202010200000000 ∧ unusedBitSet 0x0301008000000000 ∧ unusedBitSet 0x0304000001000000 ∧
      unusedBitSet 0x0304000100000000 ∧ unusedBitSet 0x0603010000000000 ∧ unusedBitSet 0x0001000000000000 ∧
      unusedBitSet 0x0502000000000001 ∧ ¬ unusedBitSet 0x03FFFF0000FFFFFF := by
  refine ⟨?_, ?_, ?_, ?_, ?_, ?_, ?_, ?_⟩ <;> unfold unusedBitSet <;> decide

/-- Each clause of the host binding at its boundaries. -/
theorem test_witness_HostBindingKeepsOutcomes :
    sendColour (-1) = 255 ∧ sendColour 256 = 0 ∧ sendChannel 255 = 255 ∧ sendChannel 256 = 0 ∧ sendChannel (-1) = 0 ∧
      sendIx (-1) = none ∧ sendIx 0 = some 0 ∧ sendIx 255 = some 255 ∧ sendIx 256 = some 255 ∧ sendIx 17 = some 17 ∧
      channelIndex (sendChannel 1) = some 0 ∧ channelIndex (sendChannel 4) = some 3 ∧
      channelIndex (sendChannel 5) = none ∧ channelIndex (sendChannel 0) = none := by decide

/-! ## Witnesses: the storage commands -/

theorem test_witness_CfgConfiguresChannel :
    faulted.fault = true ∧ stored.fault = false ∧ ((0 : Byte).toNat < 1 ∧ 4 < (5 : Byte).toNat) ∧
      (1 ≤ (4 : Byte).toNat ∧ (4 : Byte).toNat ≤ 4 ∧ 16 < (17 : Byte).toNat) ∧
      ((1 : Byte).toNat = (0 : ChanIdx).val + 1 ∧ (4 : Byte).toNat = (3 : ChanIdx).val + 1 ∧
        (0 : Byte).toNat ≤ 16 ∧ (16 : Byte).toNat ≤ 16) := by decide

/-- Each clause of SETPX and RDPX: ABSENT; index = COUNT (0 and 16); index = COUNT - 1. -/
theorem test_witness_SetpxWritesOnePixel :
    stored.fault = false ∧ ((3 : Byte).toNat = (2 : ChanIdx).val + 1 ∧ chanAt stored.chan 2 = none) ∧
      ((2 : Byte).toNat = (1 : ChanIdx).val + 1 ∧ chanAt stored.chan 1 = some ⟨true, []⟩) ∧
      (∃ cfg, chanAt stored.chan 3 = some cfg ∧ cfg.pix.length ≤ (16 : Byte).toNat ∧ (15 : Byte).toNat < cfg.pix.length) :=
  ⟨rfl, ⟨rfl, rfl⟩, ⟨rfl, rfl⟩, ⟨_, rfl, by decide, by decide⟩⟩

theorem test_witness_RdpxReadsPixel :
    stored.fault = false ∧ (1 : Byte).toNat = (0 : ChanIdx).val + 1 ∧
      chanAt stored.chan 0 = some ⟨false, [⟨1, 2, 3⟩]⟩ ∧ [(⟨1, 2, 3⟩ : Pixel)][(0 : Byte).toNat]? = some ⟨1, 2, 3⟩ ∧
      chanAt stored.chan 2 = none ∧ [(⟨1, 2, 3⟩ : Pixel)].length ≤ (1 : Byte).toNat := by decide

theorem test_witness_RdcfgReadsView :
    stored.fault = false ∧ chanAt stored.chan 2 = none ∧
      ∃ cfg, chanAt stored.chan 3 = some cfg ∧ cfg.pix.length ≤ 16 ∧ cfg.pix.length = 16 :=
  ⟨rfl, rfl, _, rfl, by decide, by decide⟩

theorem test_witness_StorageCommandsIgnoreInit :
    (Instr.cfg 1 1 false).isStorage = true ∧ (Instr.rdcfg 9).isStorage = true ∧
      (∃ t, exec (.cfg 1 1 false) stored = .next t) ∧ ∃ t, exec (.rdcfg 9) booted = .next t :=
  ⟨rfl, rfl, ⟨_, rfl⟩, ⟨_, rfl⟩⟩

/-- An OK CFG of 3 pixels: indices 2 and 3 lie on the two sides of its COUNT. -/
theorem test_witness_ReconfigurationResetsPixels :
    (∃ t, exec (.cfg 1 3 false) stored = .next t ∧ t.responses = stored.responses ++ [⟨.ok, 0⟩]) ∧
      (2 : Byte).toNat < (3 : Byte).toNat ∧ (3 : Byte).toNat ≤ (3 : Byte).toNat :=
  ⟨⟨_, rfl, by decide⟩, by decide, by decide⟩

/-- V-E6, the first row. -/
theorem test_witness_StoredPixelReadsBackMasked :
    bindLine (.setpx 1 0 (-1) 256 300) = some (.setpx 1 0 0xFF 0 0x2C) ∧ bindLine (.rdpx 1 0) = some (.rdpx 1 0) ∧
      ∃ t, exec (.setpx 1 0 0xFF 0 0x2C) stored = .next t ∧ t.responses = stored.responses ++ [⟨.ok, 0⟩] :=
  ⟨by decide, by decide, _, rfl, by decide⟩

/-- The pixel beside, in the same channel: (4, 15) and (4, 14). -/
theorem test_witness_SetpxLeavesOtherPixels :
    (∃ t, exec (.setpx 4 15 1 2 3) stored = .next t) ∧ ((4, 14) : Byte × Byte) ≠ (4, 15) ∧
      exec (.rdpx 4 14) stored = .next { stored with responses := stored.responses ++ [⟨.ok, 0⟩] } :=
  ⟨⟨_, rfl⟩, by decide, rfl⟩

theorem test_witness_ErrorsChangeNothing :
    (∃ t, exec (.cfg 4 17 false) stored = .next t ∧ t.responses = stored.responses ++ [⟨.tooManyPixels, 0⟩]) ∧
      Status.tooManyPixels ≠ .ok ∧
      (∃ t, exec .showCmd stored = .next t ∧ t.responses = stored.responses ++ [⟨.notInitialized, 0⟩]) ∧
      Status.notInitialized ≠ .ok :=
  ⟨⟨_, rfl, by decide⟩, by decide, ⟨_, rfl, by decide⟩, by decide⟩

theorem test_witness_ReadsRepeat :
    (Instr.rdpx 1 0).isRead = true ∧ (Instr.rdcfg 1).isRead = true ∧ Instr.rdstat.isRead = true := by decide

/-! ## Witnesses: control, SHOW and the sequencer -/

theorem test_witness_NopChangesNothing :
    faulted.fault = true ∧ stored.fault = false ∧ opField 0x0000000000000001 = 0x00 ∧ (0x0000000000000001 : Word) ≠ 0 := by
  decide

theorem test_witness_InitDrivesLines : faulted.fault = true ∧ stored.fault = false := by decide

theorem test_witness_RdstatReportsStatus :
    let s := { showing with inputs := [.command (encode .rdstat)] }
    s.inputs = .command (encode .rdstat) :: [] ∧ s.pending ≠ [] := by decide

theorem test_witness_FaultBlocksCommands : faulted.fault = true ∧ Instr.init ≠ .rdstat := by decide
theorem test_witness_ShowBeforeInitFaults : stored.fault = false ∧ stored.initDone = false := by decide

/-- Both forms: nothing configured, and something. -/
theorem test_witness_ShowAccepted :
    (bare.fault = false ∧ bare.initDone = true ∧ ∀ c, chanAt bare.chan c = none) ∧
      booted.fault = false ∧ booted.initDone = true ∧ ¬ ∀ c, chanAt booted.chan c = none := by decide

/-- The first of two events, and the last one; nothing offered, and a command held. -/
theorem test_witness_SequencerDrivesHead :
    (showing.pending = .write .clk true :: [.write .clk false] ∧ resetNext showing = false) ∧
      let s := { showing with pending := [.write .clk false], inputs := [.command 0] }
      s.pending = .write .clk false :: [] ∧ resetNext s = false := by decide

theorem test_witness_CommandsHeldWhileBusy :
    let s := { showing with inputs := [.command 0] }
    s.inputs = .command 0 :: [] ∧ s.pending ≠ [] := by decide

/-- `booted` with channel 3 alone configured, and a SHOW offered. -/
def aboutToShow (more : List HostInput) : State :=
  { booted with chan := lone, inputs := .command (encode .showCmd) :: more }

/-- A list of at least 142 events, whatever the parameters. -/
theorem test_lone_length : 142 ≤ (showEvents Config.params lone).length := by
  have h : showEvents Config.params lone =
      (select 2 ++ (sof ++ eof)) ++ (deselect Config.params 2 ++ []) := by
    simp [showEvents, allChannels, chanAt, lone, channelEvents, frame]
  rw [h, List.length_append, show (select 2 ++ (sof ++ eof)).length = 142 by decide +kernel]
  omega

/-- k = 0, and the k that stands for the whole list. -/
theorem test_witness_ShowRunsToCompletion :
    (aboutToShow []).inputs = .command (encode .showCmd) :: [] ∧ noResetNext [] ∧ (aboutToShow []).pending = [] ∧
      (aboutToShow []).fault = false ∧ (aboutToShow []).initDone = true ∧
      0 ≤ (showEvents Config.params (aboutToShow []).chan).length ∧
      142 ≤ (showEvents Config.params (aboutToShow []).chan).length ∧ noResetNext [.command 0] :=
  ⟨rfl, .inl rfl, rfl, rfl, rfl, Nat.zero_le _, test_lone_length, .inr ⟨_, _, rfl⟩⟩

theorem test_witness_SecondShowRepeatsList :
    let s := aboutToShow [.command (encode .showCmd)]
    s.inputs = [.command (encode .showCmd), .command (encode .showCmd)] ∧ s.pending = [] ∧ s.fault = false ∧
      s.initDone = true := by decide

/-- A reset at once (k = 0) and one after 141 events. -/
theorem test_witness_ResetCutsShowShort (k : Nat) (hk : k = 0 ∨ k = 141) :
    let s := aboutToShow (List.replicate k .idle ++ .reset none :: [])
    s.inputs = .command (encode .showCmd) :: (List.replicate k .idle ++ .reset none :: []) ∧ s.pending = [] ∧
      s.fault = false ∧ s.initDone = true ∧ k < (showEvents Config.params s.chan).length :=
  ⟨rfl, rfl, rfl, rfl, by have := test_lone_length; show k < (showEvents Config.params lone).length; omega⟩

theorem test_witness_LinesAfterShow :
    (∀ c, chanAt noChannels c = none) ∧ (chanAt lone 2).isSome ∧ (∀ c' : ChanIdx, 2 < c' → chanAt lone c' = none) ∧
      (chanAt stored.chan 3).isSome ∧ ∀ c' : ChanIdx, 3 < c' → chanAt stored.chan c' = none := by decide

theorem test_witness_EmptyChannelIsFramed : demo.deselectAfterFrame = false := rfl

theorem test_witness_AbsentChannelIsSkipped : chanAt lone 0 = none ∧ chanAt lone 3 = none := by decide

theorem test_witness_AbsentSelectPinStaysHigh :
    chanAt lone 0 = none ∧ initLines.pin (.sel 0) = .level true ∧ (waveform (.sel 0) initLines (showEvents demo lone)) ≠ [] := by
  decide

/-! ## Witnesses: the framer and the selector -/

theorem test_witness_DatStableWhileClkHigh : FramerList demo (writeByte 0xA5 ++ eof) := .append (.writeByte _) .eof

/-- The modes are outputs on every line; the first pulse of the frame. -/
theorem test_witness_OneChannelSelectedPerPulse :
    (initLines.mode.get .dat = .output ∧ initLines.mode.get .clk = .output ∧
        ∀ k, initLines.mode.get (.sel k) = .output) ∧
      select 2 ++ frame demo ⟨false, []⟩ ++ deselect demo 2 =
        (select 2 ++ [.write .dat false]) ++
          .write .clk true :: .write .clk false :: (pulses 31 ++ eof) := by decide

theorem test_witness_ClkWritesAreEdges :
    initLines.pin .clk = .level false ∧
      showEvents demo lone = (select 2 ++ [.write .dat false]) ++
        .write .clk true :: .write .clk false :: (pulses 31 ++ eof) := by decide

/-- Every line of `initLines` is an output. -/
theorem test_initLines_output (l : Line) : initLines.mode.get l = .output := by
  rcases l with _ | _ | k
  · rfl
  · rfl
  · revert k
    decide

theorem test_initLines_settled : LinesSettled Config.params initLines :=
  ⟨test_initLines_output, rfl, rfl, .inl (by decide)⟩

theorem test_witness_ChannelsReceiveTheirFrames :
    (∀ l, initLines.mode.get l = .output) ∧ chanAt lone 2 = some ⟨false, []⟩ ∧ chanAt lone 0 = none :=
  ⟨test_initLines_output, by decide, by decide⟩

/-- The trace of a machine on which INIT alone was done gives the lines after INIT. -/
theorem test_replay_init : replay initEvents = initLines := by decide

theorem test_linesFollowInit {s : State} (hi : s.initDone = true) (hl : s.lines = initLines) (hp : s.pending = []) :
    LinesFollowInit s := by
  refine ⟨fun h => absurd h (by simp [hi]), fun _ => ?_⟩
  rw [hl, hp]
  exact ⟨test_initLines_output, by simp [AllWrites], test_initLines_settled⟩

theorem test_pinsFollowTrace {s : State} (ht : s.tr = initEvents) (hl : s.lines = initLines) (hp : s.pending = []) :
    PinsFollowTrace s := by
  refine ⟨fun l => ?_, fun l _ => ?_, fun e he => ?_⟩
  · rw [ht, hl, test_replay_init]
  · rw [ht, hl, test_replay_init]
  · simp [hp] at he

theorem test_witness_CompletedShowDeliversFrames :
    (aboutToShow []).inputs = .command (encode .showCmd) :: [] ∧ noResetNext [] ∧ (aboutToShow []).pending = [] ∧
      (aboutToShow []).fault = false ∧ (aboutToShow []).initDone = true ∧ LinesFollowInit (aboutToShow []) ∧
      PinsFollowTrace (aboutToShow []) :=
  ⟨rfl, .inl rfl, rfl, rfl, rfl, test_linesFollowInit rfl rfl rfl, test_pinsFollowTrace rfl rfl rfl⟩

/-! ## Witnesses: reset, the step and the invariants -/

/-- A reset while BUSY, with a command cancelled. -/
theorem test_witness_ResetStepClears :
    let s := { showing with inputs := [.reset (some 0)] }
    s.inputs = .reset (some 0) :: [] ∧ s.pending ≠ [] := by decide

theorem test_witness_PowerOnState :
    let s := { faulted with inputs := [.reset none] }
    s.inputs = .reset none :: [] := by decide

theorem test_witness_NothingHappensUnasked : booted.inputs = [] ∧ booted.pending = [] := by decide

theorem test_witness_StepRunsDecodedCommand :
    let s := { stored with inputs := [.command 0x03040F0000123456] }
    s.inputs = .command 0x03040F0000123456 :: [] ∧ s.pending = [] ∧
      decode 0x03040F0000123456 = .command (.setpx 4 15 0x12 0x34 0x56) := by decide

/-- A CFG that changes a record, and a reset that makes one ABSENT. -/
theorem test_witness_ConfiguredStaysConfigured :
    (∃ t, step { stored with inputs := [.command 0x0201000000000000] } = .next t ∧
        chanAt t.chan 0 ≠ chanAt stored.chan 0) ∧
      ∃ t, step { stored with inputs := [.reset none] } = .next t ∧ chanAt stored.chan 0 ≠ none ∧
        chanAt t.chan 0 = none :=
  ⟨⟨_, rfl, by decide⟩, ⟨_, rfl, by decide, by decide⟩⟩

/-- Each clause: INIT sets INIT_DONE and writes MODE, a reset clears INIT_DONE and FAULT, a SHOW sets FAULT. -/
theorem test_witness_FlagsChangeAsStated :
    AllWrites stored.pending ∧ AllWrites showing.pending ∧
      (∃ t, step { stored with inputs := [.command (encode .init)] } = .next t ∧ stored.initDone = false ∧
        t.initDone = true ∧ t.lines.mode ≠ stored.lines.mode) ∧
      (∃ t, step { booted with inputs := [.reset none] } = .next t ∧ t.initDone = false ∧ booted.initDone = true) ∧
      (∃ t, step { stored with inputs := [.command (encode .showCmd)] } = .next t ∧ stored.fault = false ∧
        t.fault = true) ∧
      ∃ t, step { faulted with inputs := [.reset none] } = .next t ∧ faulted.fault = true ∧ t.fault = false :=
  ⟨by simp [AllWrites, stored, State.reset],
    by simp [AllWrites, showing],
    ⟨_, rfl, by decide, by decide, by decide⟩, ⟨_, rfl, by decide, by decide⟩, ⟨_, rfl, by decide, by decide⟩,
    ⟨_, rfl, by decide, by decide⟩⟩

theorem test_witness_TraceOnlyGrows : ∃ t, step showing = .next t ∧ t.tr ≠ showing.tr := ⟨_, rfl, by decide⟩

theorem test_witness_ChannelsStayBounded : ChannelsBounded stored ∧ ∃ t, step stored = .next t := by
  refine ⟨fun c cfg h => ?_, _, rfl⟩
  have : ∀ c : ChanIdx, ((chanAt stored.chan c).elim 0 fun cfg => cfg.pix.length) ≤ maxPixels := by decide
  simpa [h] using this c

theorem test_witness_FaultStaysApartFromInit :
    FaultExcludesInit faulted ∧ faulted.fault = true ∧ FaultExcludesInit booted ∧
      ∃ t, step { faulted with inputs := [.command (encode .init)] } = .next t :=
  ⟨fun _ => rfl, rfl, fun h => absurd h (by decide), _, rfl⟩

theorem test_witness_LinesKeepFollowingInit :
    LinesFollowInit booted ∧ Clean booted ∧ booted.initDone = true ∧ LinesFollowInit State.reset ∧
      ∃ t, step { booted with inputs := [.command (encode .showCmd)] } = .next t := by
  refine ⟨test_linesFollowInit rfl rfl rfl, ⟨rfl, rfl⟩, rfl, ⟨fun _ => ⟨fun l => ?_, rfl⟩, fun h => absurd h (by decide)⟩, _, rfl⟩
  rcases l with _ | _ | k
  · rfl
  · rfl
  · revert k
    decide

theorem test_witness_PinsKeepFollowingTrace : PinsFollowTrace booted ∧ ∃ t, step booted = .next t :=
  ⟨test_pinsFollowTrace rfl rfl rfl, _, rfl⟩

/-- The last pulse of a frame to channel index 0 is safe: its select line stands at 0 and CLK at 0. -/
theorem test_witness_PulsesStaySafe :
    let s := { showing with lines := { initLines with lat := { initLines.lat with sel := #v[false, true, true, true] } } }
    (∃ c, ∀ k, s.lines.pin (.sel k) = .level (if k = c then selActive else selInactive)) ∧
      s.lines.pin .clk = .level false ∧ LinesFollowInit booted ∧ PulsesSafe booted.lines booted.pending ∧
      ∃ t, step booted = .next t :=
  ⟨by decide, by decide, test_linesFollowInit rfl rfl rfl, fun pre post h => by simp [booted, stored, State.reset] at h, _, rfl⟩

theorem test_witness_WellBootedNeverFaults :
    let s := { stored with inputs := [.command (encode .init), .command (encode .showCmd)] }
    s.fault = false ∧ wellBooted s.initDone s.inputs = true ∧ ∃ t, step s = .next t :=
  ⟨rfl, by decide, _, rfl⟩

end Sys2Proof.Tests
end

/-! ## The channel storage: what changes CHAN, and the invariant of R22 -/

namespace Sys2Proof.Machine

/-- The sequencer does not touch the storage (R34). -/
@[simp] theorem sequencerStep_chan (s : State) : (sequencerStep s).chan = s.chan := by
  cases h : s.pending with
  | nil => rw [sequencerStep_idle h]
  | cons e rest => rw [sequencerStep_cons h]

@[simp] theorem performAll_chan (s : State) (es : List Event) : (performAll s es).chan = s.chan := by
  rw [performAll_eq]

@[simp] theorem startShow_chan (es : List Event) (s : State) : (startShow es s).chan = s.chan := by
  rw [startShow_eq]

@[simp] theorem freshChannel_pix_length (n : Nat) (gm : Bool) : (freshChannel n gm).pix.length = n :=
  List.length_replicate

/-- Everything a command can do to the storage: nothing; CFG puts a fresh record, its count checked (R100); SETPX
replaces a pixel of a configured channel (R101). -/
theorem exec_chan_cases {i : Instr} {s t : State} (ht : exec i s = .next t) :
    t.chan = s.chan ∨
      (∃ ch n gm, ∃ c : ChanIdx, i = .cfg ch n gm ∧ n.toNat ≤ 16 ∧
        t.chan = s.chan.set c (some (freshChannel n.toNat gm))) ∨
      ∃ ch ix r g b c cfg, i = .setpx ch ix r g b ∧ chanAt s.chan c = some cfg ∧
        t.chan = s.chan.set c (some { cfg with pix := cfg.pix.set ix.toNat ⟨r, g, b⟩ }) := by
  rcases exec_cases i s with ⟨-, -, h⟩ | ⟨e, -, -, -, -, h⟩ | ⟨d, -, h⟩ | ⟨-, -, h⟩ |
      ⟨ch, n, gm, c, hi, -, -, hn, h⟩ | ⟨ch, ix, r, g, b, c, cfg, hi, -, -, hcfg, -, h⟩ |
      ⟨-, -, h⟩ | ⟨-, -, -, h⟩ | ⟨-, -, -, h⟩ <;>
    cases h.symm.trans ht
  · exact .inl rfl
  · exact .inl rfl
  · exact .inl rfl
  · exact .inl rfl
  · exact .inr (.inl ⟨ch, n, gm, c, hi, hn, rfl⟩)
  · exact .inr (.inr ⟨ch, ix, r, g, b, c, cfg, hi, hcfg, rfl⟩)
  · exact .inl (by simp)
  · exact .inl (by simp)
  · exact .inl rfl

/-- The invariant speaks of the storage alone. -/
theorem channelsBounded_of_chan_eq {s t : State} (h : t.chan = s.chan) (hs : ChannelsBounded s) :
    ChannelsBounded t := by
  intro c cfg hc
  rw [h] at hc
  exact hs c cfg hc

/-- Replacing one channel by a record of at most MAX_PIXELS pixels keeps the bound. -/
theorem channelsBounded_of_chan_eq_set {s t : State} {c : ChanIdx} {x : ChannelCfg}
    (h : t.chan = s.chan.set c (some x)) (hx : x.pix.length ≤ maxPixels) (hs : ChannelsBounded s) :
    ChannelsBounded t := by
  intro c' cfg hc
  rw [h, chanAt_set] at hc
  split at hc
  · cases hc
    exact hx
  · exact hs c' cfg hc

/-- A reset leaves every channel ABSENT (R270). -/
theorem channelsBounded_resetBlock (s : State) : ChannelsBounded (resetBlock s) := by
  intro c cfg hc
  simp at hc

/-- CFG has checked its count, and SETPX keeps the number of pixels. -/
theorem exec_keeps_channelsBounded {i : Instr} {s t : State} (hs : ChannelsBounded s) (ht : exec i s = .next t) :
    ChannelsBounded t := by
  obtain h | ⟨ch, n, gm, c, -, hn, h⟩ | ⟨ch, ix, r, g, b, c, cfg, -, hcfg, h⟩ := exec_chan_cases ht
  · exact channelsBounded_of_chan_eq h hs
  · exact channelsBounded_of_chan_eq_set h (by simpa [maxPixels] using hn) hs
  · exact channelsBounded_of_chan_eq_set h (by simpa using hs c cfg hcfg) hs

/-- Settles O53: every step keeps the bound, since every command does and no other step stores a pixel. -/
theorem channelsStayBounded : Obligations.ChannelsStayBounded := by
  intro s t hs hst
  exact step_keeps (I := ChannelsBounded)
    (hseq := fun s => channelsBounded_of_chan_eq (sequencerStep_chan s))
    (hin := fun _ _ => channelsBounded_of_chan_eq rfl)
    (hreset := fun s _ => channelsBounded_resetBlock s)
    (hexec := fun _ _ _ h _ ht => exec_keeps_channelsBounded h ht)
    (hresp := fun s st d => channelsBounded_of_chan_eq (respond_chan st d s))
    hs hst

end Sys2Proof.Machine

/-! ## The lines' numbers (R11) -/

namespace Sys2Proof

/-- DAT is 0, CLK is 1, and SELk is k + 2: no two lines share a number. -/
theorem Line.number_injective : Function.Injective Line.number := by
  intro l l' h
  match l, l', h with
  | .dat, .dat, _ => rfl
  | .clk, .clk, _ => rfl
  | .sel _, .sel _, h => exact congrArg Line.sel (Fin.ext (Nat.add_right_cancel h))

/-- Settles O60: PIN_MAP is a permutation after the lines' numbers. -/
theorem pinMapInjective : Obligations.PinMapInjective :=
  Config.pinNumbering.injective.comp Line.number_injective

end Sys2Proof

/-! ## The step and the commands, field by field: what the sequencer leaves, and who may change what -/

namespace Sys2Proof.Machine

/-! The sequencer moves the head of PENDING, if there is one, to the lines and the trace (R34). -/

@[simp] theorem sequencerStep_initDone (s : State) : (sequencerStep s).initDone = s.initDone := by
  cases h : s.pending with
  | nil => rw [sequencerStep_idle h]
  | cons e rest => rw [sequencerStep_cons h]

@[simp] theorem sequencerStep_fault (s : State) : (sequencerStep s).fault = s.fault := by
  cases h : s.pending with
  | nil => rw [sequencerStep_idle h]
  | cons e rest => rw [sequencerStep_cons h]

@[simp] theorem sequencerStep_inputs (s : State) : (sequencerStep s).inputs = s.inputs := by
  cases h : s.pending with
  | nil => rw [sequencerStep_idle h]
  | cons e rest => rw [sequencerStep_cons h]

@[simp] theorem sequencerStep_pending (s : State) : (sequencerStep s).pending = s.pending.tail := by
  cases h : s.pending with
  | nil => rw [sequencerStep_idle h, h, List.tail_nil]
  | cons e rest => rw [sequencerStep_cons h, List.tail_cons]

@[simp] theorem sequencerStep_tr (s : State) : (sequencerStep s).tr = s.tr ++ s.pending.take 1 := by
  cases h : s.pending with
  | nil => simp [sequencerStep_idle h]
  | cons e rest => simp [sequencerStep_cons h]

@[simp] theorem sequencerStep_lines (s : State) :
    (sequencerStep s).lines = s.lines.applyAll (s.pending.take 1) := by
  cases h : s.pending with
  | nil => simp [sequencerStep_idle h]
  | cons e rest => simp [sequencerStep_cons h]

@[simp] theorem sequencerStep_responses (s : State) :
    (sequencerStep s).responses = s.responses ++ if s.pending.length = 1 then [⟨.ok, 0⟩] else [] := by
  cases h : s.pending with
  | nil => simp [sequencerStep_idle h]
  | cons e rest => simp [sequencerStep_cons h]

/-- While BUSY and short of a reset, the step is the sequencer's, whatever the host offers (R34, R277). -/
theorem step_of_busy {s : State} (hb : s.pending ≠ []) (hr : resetNext s = false) :
    ∃ inputs, step s = .next (sequencerStep { s with inputs := inputs }) := by
  cases h : s.inputs with
  | nil => exact ⟨s.inputs, step_of_no_inputs h⟩
  | cons x rest =>
    cases x with
    | idle => exact ⟨rest, step_of_idle h⟩
    | command w => exact ⟨s.inputs, step_of_held h hb⟩
    | reset o => simp [resetNext, h] at hr

/-- A word offered on a free port that decodes is the command the next step takes. -/
theorem takenNext_of_command {s : State} {w : Word} {rest : List HostInput} {i : Instr}
    (h : s.inputs = .command w :: rest) (hp : s.pending = []) (hd : decode w = .command i) :
    takenNext s = some i := by
  simp [takenNext, h, busy, hp, hd, Decoded.command?]

/-- Everything a step can do, by what comes next: a reset, the command that is taken, a sequencer step (nothing, when
nothing is pending), or the answer to an Illegal word. -/
theorem step_next_cases {s t : State} (hst : step s = .next t) :
    (resetNext s = true ∧ ∃ inputs, t = resetBlock { s with inputs := inputs }) ∨
      (∃ i inputs, takenNext s = some i ∧ exec i { s with inputs := inputs } = .next t) ∨
      (∃ inputs, t = sequencerStep { s with inputs := inputs }) ∨
      ∃ inputs, t = raise .illegalCommand { s with inputs := inputs } := by
  rcases step_cases s with ⟨h, -⟩ | ⟨rest, -, h⟩ | ⟨o, rest, hin, h⟩ | ⟨w, rest, why, -, -, -, h⟩ |
      ⟨w, rest, i, hin, hp, hd, h⟩
  · cases h.symm.trans hst
    exact .inr (.inr (.inl ⟨s.inputs, rfl⟩))
  · cases h.symm.trans hst
    exact .inr (.inr (.inl ⟨rest, rfl⟩))
  · cases h.symm.trans hst
    exact .inl ⟨by simp [resetNext, hin], rest, rfl⟩
  · cases h.symm.trans hst
    exact .inr (.inr (.inr ⟨rest, rfl⟩))
  · exact .inr (.inl ⟨i, rest, takenNext_of_command hin hp hd, h ▸ hst⟩)

/-- The parts of the block that are neither storage nor answers are the same in both states. -/
def SameControl (s t : State) : Prop :=
  t.initDone = s.initDone ∧ t.fault = s.fault ∧ t.lines = s.lines ∧ t.pending = s.pending ∧ t.tr = s.tr

/-- Everything a command can do besides the storage and its answer: nothing; INIT performs its events and sets INIT_DONE
(R221); an accepted SHOW writes PENDING (R190); a SHOW before INIT sets FAULT (R191). -/
theorem exec_control_cases {i : Instr} {s t : State} (ht : exec i s = .next t) :
    SameControl s t ∨
      (i = .init ∧ s.fault = false ∧ t.initDone = true ∧ t.fault = s.fault ∧
        t.lines = s.lines.applyAll initEvents ∧ t.pending = s.pending ∧ t.tr = s.tr ++ initEvents) ∨
      (i = .showCmd ∧ s.initDone = true ∧ t.initDone = s.initDone ∧ t.fault = s.fault ∧ t.lines = s.lines ∧
        t.pending = showEvents Config.params s.chan ∧ t.tr = s.tr) ∨
      (i = .showCmd ∧ s.initDone = false ∧ t.initDone = s.initDone ∧ t.fault = true ∧ t.lines = s.lines ∧
        t.pending = s.pending ∧ t.tr = s.tr) := by
  rcases exec_cases i s with ⟨-, -, h⟩ | ⟨e, -, -, -, -, h⟩ | ⟨d, -, h⟩ | ⟨-, -, h⟩ |
      ⟨ch, n, gm, c, -, -, -, -, h⟩ | ⟨ch, ix, r, g, b, c, cfg, -, -, -, -, -, h⟩ |
      ⟨hi, hf, h⟩ | ⟨hi, -, hd, h⟩ | ⟨hi, -, hd, h⟩ <;>
    cases h.symm.trans ht
  · exact .inl ⟨rfl, rfl, rfl, rfl, rfl⟩
  · exact .inl ⟨rfl, rfl, rfl, rfl, rfl⟩
  · exact .inl ⟨rfl, rfl, rfl, rfl, rfl⟩
  · exact .inl ⟨rfl, rfl, rfl, rfl, rfl⟩
  · exact .inl ⟨rfl, rfl, rfl, rfl, rfl⟩
  · exact .inl ⟨rfl, rfl, rfl, rfl, rfl⟩
  · exact .inr (.inl ⟨hi, hf, by simp [performAll_eq]⟩)
  · exact .inr (.inr (.inl ⟨hi, hd, by simp [startShow_eq]⟩))
  · exact .inr (.inr (.inr ⟨hi, hd, rfl, rfl, rfl, rfl, rfl⟩))

/-- A command gives at most one answer at once (R84, R190). -/
theorem exec_responses {i : Instr} {s t : State} (ht : exec i s = .next t) :
    ∃ rs, t.responses = s.responses ++ rs ∧ rs.length ≤ 1 := by
  rcases exec_cases i s with ⟨-, -, h⟩ | ⟨e, -, -, -, -, h⟩ | ⟨d, -, h⟩ | ⟨-, -, h⟩ |
      ⟨ch, n, gm, c, -, -, -, -, h⟩ | ⟨ch, ix, r, g, b, c, cfg, -, -, -, -, -, h⟩ |
      ⟨-, -, h⟩ | ⟨-, -, -, h⟩ | ⟨-, -, -, h⟩ <;>
    cases h.symm.trans ht
  · exact ⟨_, rfl, le_rfl⟩
  · exact ⟨_, rfl, le_rfl⟩
  · exact ⟨_, rfl, le_rfl⟩
  · exact ⟨_, rfl, le_rfl⟩
  · exact ⟨_, rfl, le_rfl⟩
  · exact ⟨_, rfl, le_rfl⟩
  · exact ⟨[⟨.ok, 0⟩], by simp [performAll_eq], le_rfl⟩
  · rw [startShow_eq]
    exact ⟨_, rfl, by split <;> simp⟩
  · exact ⟨_, rfl, le_rfl⟩

end Sys2Proof.Machine

/-! ## The sequencer, the flags and the trace (R34, R27, R28, R35, R39) -/

namespace Sys2Proof.Machine

/-- Settles O25: the step is the sequencer's, and the head of PENDING is the write. -/
theorem sequencerDrivesHead : Obligations.SequencerDrivesHead := by
  intro s l v rest hp hr
  obtain ⟨inputs, hst⟩ := step_of_busy (by simp [hp]) hr
  exact ⟨_, hst, by simp [hp, PerLine.get_set]⟩

/-- Settles O26: the step is the sequencer's, which leaves the inputs, the storage and the flags alone. -/
theorem commandsHeldWhileBusy : Obligations.CommandsHeldWhileBusy := by
  intro s w rest hin hb
  have hlen : s.pending.length ≠ 0 := by simpa using hb
  refine ⟨_, step_of_held hin hb, by simp, by simp, by simp, by simp, ?_⟩
  rw [sequencerStep_pending, List.length_tail]
  omega

/-- Replacing a channel by a configured one makes no channel ABSENT. -/
theorem chanAt_ne_none_of_set {v : Vector (Option ChannelCfg) 4} {c : ChanIdx} (c' : ChanIdx) (x : ChannelCfg)
    (h : chanAt v c ≠ none) : chanAt (v.set c' (some x)) c ≠ none := by
  rw [chanAt_set]
  split
  · simp
  · exact h

/-- Only CFG and SETPX change a channel record. -/
theorem exec_chan_changes {i : Instr} {s t : State} {c : ChanIdx} (ht : exec i s = .next t)
    (hc : chanAt t.chan c ≠ chanAt s.chan c) :
    (∃ ch n gm, i = .cfg ch n gm) ∨ ∃ ch ix r g b, i = .setpx ch ix r g b := by
  rcases exec_chan_cases ht with h | ⟨ch, n, gm, _, hi, -, -⟩ | ⟨ch, ix, r, g, b, _, _, hi, -, -⟩
  · exact absurd (by rw [h]) hc
  · exact .inl ⟨ch, n, gm, hi⟩
  · exact .inr ⟨ch, ix, r, g, b, hi⟩

/-- No command removes a configuration (R39). -/
theorem exec_keeps_configured {i : Instr} {s t : State} {c : ChanIdx} (ht : exec i s = .next t)
    (hc : chanAt s.chan c ≠ none) : chanAt t.chan c ≠ none := by
  rcases exec_chan_cases ht with h | ⟨_, _, _, _, -, -, h⟩ | ⟨_, _, _, _, _, _, _, -, -, h⟩ <;> rw [h]
  · exact hc
  · exact chanAt_ne_none_of_set _ _ hc
  · exact chanAt_ne_none_of_set _ _ hc

/-- Settles O50: a reset is named by the statement, a command is CFG or SETPX and removes nothing, and no other step
touches the storage. -/
theorem configuredStaysConfigured : Obligations.ConfiguredStaysConfigured := by
  intro s t c hst
  rcases step_next_cases hst with ⟨hr, -⟩ | ⟨i, inputs, hi, ht⟩ | ⟨inputs, rfl⟩ | ⟨inputs, rfl⟩
  · exact ⟨fun _ => .inl hr, fun _ _ => hr⟩
  · refine ⟨fun hc => .inr ?_, fun hc hnone => absurd hnone (exec_keeps_configured ht hc)⟩
    simpa [hi] using exec_chan_changes ht hc
  · exact ⟨fun hc => absurd (by simp) hc, fun hc hnone => absurd (by simpa using hnone) hc⟩
  · exact ⟨fun hc => absurd rfl hc, fun hc hnone => absurd hnone hc⟩

/-- While only writes are pending, the sequencer changes no MODE. -/
theorem sequencerStep_mode {s : State} (hw : AllWrites s.pending) :
    (sequencerStep s).lines.mode = s.lines.mode := by
  rw [sequencerStep_lines]
  exact applyAll_mode_of_writes (fun e he => hw e (List.mem_of_mem_take he)) _

/-- What a step can do to the flags and MODE: a reset clears them; they stay; INIT sets INIT_DONE; a SHOW before INIT
sets FAULT. -/
theorem step_flag_cases {s t : State} (hw : AllWrites s.pending) (hst : step s = .next t) :
    (resetNext s = true ∧ t.initDone = false ∧ t.fault = false) ∨
      (t.initDone = s.initDone ∧ t.fault = s.fault ∧ t.lines.mode = s.lines.mode) ∨
      (takenNext s = some .init ∧ s.fault = false ∧ t.initDone = true ∧ t.fault = s.fault) ∨
      (takenNext s = some .showCmd ∧ s.initDone = false ∧ t.initDone = s.initDone ∧ t.fault = true ∧
        t.lines.mode = s.lines.mode) := by
  rcases step_next_cases hst with ⟨hr, inputs, rfl⟩ | ⟨i, inputs, hi, ht⟩ | ⟨inputs, rfl⟩ | ⟨inputs, rfl⟩
  · exact .inl ⟨hr, rfl, rfl⟩
  · rcases exec_control_cases ht with ⟨hd, hf, hl, -⟩ | ⟨rfl, hf, hd, hf', -⟩ | ⟨rfl, -, hd, hf, hl, -⟩ |
        ⟨rfl, hd, hd', hf, hl, -⟩
    · exact .inr (.inl ⟨hd, hf, congrArg LineState.mode hl⟩)
    · exact .inr (.inr (.inl ⟨hi, hf, hd, hf'⟩))
    · exact .inr (.inl ⟨hd, hf, congrArg LineState.mode hl⟩)
    · exact .inr (.inr (.inr ⟨hi, hd, hd', hf, congrArg LineState.mode hl⟩))
  · exact .inr (.inl ⟨sequencerStep_initDone _, sequencerStep_fault _, sequencerStep_mode hw⟩)
  · exact .inr (.inl ⟨rfl, rfl, rfl⟩)

/-- Settles O51: each of the four things a step can do to the flags and MODE meets every clause. -/
theorem flagsChangeAsStated : Obligations.FlagsChangeAsStated := by
  intro s t hw hst
  rcases step_flag_cases hw hst with ⟨hr, hd, hf⟩ | ⟨hd, hf, hm⟩ | ⟨hi, hf, hd, hf'⟩ | ⟨hi, hd, hd', hf, hm⟩
  · simp [hr, hd, hf]
  · simp +contextual [hd, hf, hm]
  · simp [hi, hf, hd, hf']
  · simp [hi, hd, hd', hf, hm]

/-- Settles O52: a reset and the sequencer append one event, INIT appends its own; each answer is one response. -/
theorem traceOnlyGrows : Obligations.TraceOnlyGrows := by
  intro s t hst
  rcases step_next_cases hst with ⟨-, inputs, rfl⟩ | ⟨i, inputs, -, ht⟩ | ⟨inputs, rfl⟩ | ⟨inputs, rfl⟩
  · exact ⟨⟨_, rfl⟩, [], by simp⟩
  · refine ⟨?_, exec_responses (s := { s with inputs := inputs }) ht⟩
    rcases exec_control_cases ht with ⟨-, -, -, -, h⟩ | ⟨-, -, -, -, -, -, h⟩ | ⟨-, -, -, -, -, -, h⟩ |
        ⟨-, -, -, -, -, -, h⟩
    · exact ⟨[], by simp [h]⟩
    · exact ⟨_, h⟩
    · exact ⟨[], by simp [h]⟩
    · exact ⟨[], by simp [h]⟩
  · refine ⟨⟨_, sequencerStep_tr _⟩, _, sequencerStep_responses _, ?_⟩
    split <;> simp
  · exact ⟨⟨[], by simp⟩, _, rfl, le_rfl⟩

/-- INIT is refused while FAULT = 1, and the SHOW that sets FAULT finds INIT_DONE = 0. -/
theorem exec_keeps_faultExcludesInit {i : Instr} {s t : State} (hs : FaultExcludesInit s) (ht : exec i s = .next t) :
    FaultExcludesInit t := by
  intro hft
  rcases exec_control_cases ht with ⟨hd, hf, -⟩ | ⟨-, hf, -, hf', -⟩ | ⟨-, -, hd, hf, -⟩ | ⟨-, hd, hd', -⟩
  · rw [hd, hs (hf ▸ hft)]
  · simp [hf', hf] at hft
  · rw [hd, hs (hf ▸ hft)]
  · rw [hd', hd]

/-- Settles O54: every command keeps it, a reset clears both flags, and no other step writes them. -/
theorem faultStaysApartFromInit : Obligations.FaultStaysApartFromInit := by
  intro s t hs hst
  exact step_keeps (I := FaultExcludesInit)
    (hseq := fun s h => by simpa [FaultExcludesInit] using h)
    (hin := fun _ _ h => h)
    (hreset := fun _ _ _ => rfl)
    (hexec := fun _ _ _ h _ ht => exec_keeps_faultExcludesInit h ht)
    (hresp := fun _ _ _ h => h)
    hs hst

/-- Settles O21: every command but RDSTAT acts only unless FAULT = 1. -/
theorem faultBlocksCommands : Obligations.FaultBlocksCommands := by
  intro i s hf hi
  cases i with
  | rdstat => exact absurd rfl hi
  | nop | init | cfg | setpx | showCmd | rdpx | rdcfg =>
    exact congrArg Host.Outcome.next (unlessFaulted_of_fault hf _)

end Sys2Proof.Machine

/-! ## The lines: what a SHOW leaves settled, and the invariants of R274 and R33 -/

namespace Sys2Proof.Machine

/-! Clock pulses and the two frame markers end with CLK at 0 (R141, R147, R148). -/

/-- A row of pulses leaves the lines as they were, but for CLK at 0. -/
theorem applyAll_pulses_succ (n : Nat) (ls : LineState) :
    ls.applyAll (pulses (n + 1)) = { ls with lat := ls.lat.set .clk false } := by
  induction n generalizing ls with
  | zero => rfl
  | succ n ih => rw [pulses_succ, applyAll_append, ih]; rfl

/-- The end-of-frame marker leaves the lines as they were, but for DAT and CLK at 0. -/
theorem applyAll_eof (ls : LineState) :
    ls.applyAll eof = { ls with lat := (ls.lat.set .dat false).set .clk false } := by
  rw [eof, applyAll_append, eofPulses, applyAll_pulses_succ]
  rfl

/-- A frame ends with DAT and CLK at 0 (R149). -/
theorem applyAll_frame_low (P : Params) (cfg : ChannelCfg) (ls : LineState) :
    (ls.applyAll (frame P cfg)).lat.get .dat = false ∧ (ls.applyAll (frame P cfg)).lat.get .clk = false := by
  rw [frame, applyAll_append, applyAll_eof]
  simp [PerLine.get_set]

/-- After `select` the select latches are one-hot, whatever they were (R171). -/
theorem applyAll_select_sel (c k : ChanIdx) (ls : LineState) :
    (ls.applyAll (select c)).lat.get (.sel k) = if k = c then selActive else selInactive := by
  rw [select_eq]
  fin_cases k <;> simp [PerLine.get_set]

/-- `deselect` leaves every latch but the channel's own select as it was, and drives that one inactive when
DESELECT_AFTER_FRAME = 1 (R174). -/
theorem applyAll_deselect_lat (P : Params) (c : ChanIdx) (l : Line) (ls : LineState) :
    (ls.applyAll (deselect P c)).lat.get l =
      if P.deselectAfterFrame = true ∧ l = .sel c then selInactive else ls.lat.get l := by
  unfold deselect
  cases P.deselectAfterFrame <;> simp [drive, PerLine.get_set]

/-- A configured channel's part of a SHOW settles lines that are outputs, whatever their latches were (R197). -/
theorem linesSettled_configured (P : Params) (c : ChanIdx) (cfg : ChannelCfg) {ls : LineState}
    (hm : ∀ l, ls.mode.get l = .output) : LinesSettled P (ls.applyAll (channelEvents P c (some cfg))) := by
  obtain ⟨hdat, hclk⟩ := applyAll_frame_low P cfg (ls.applyAll (select c))
  have hsel : ∀ k, ((ls.applyAll (select c)).applyAll (frame P cfg)).lat.get (.sel k) =
      if k = c then selActive else selInactive := fun k => by
    rw [(applyAll_of_sharedLinesOnly (sharedLinesOnly_frame P cfg) _).2, applyAll_select_sel]
  rw [LinesSettled, applyAll_mode_of_writes (writes_channelEvents P c _)]
  simp only [channelEvents, applyAll_append, SelectsSettled, applyAll_deselect_lat, hdat, hclk, hsel]
  refine ⟨hm, by simp, by simp, ?_⟩
  cases P.deselectAfterFrame with
  | true => exact .inl fun k => by by_cases h : k = c <;> simp [h]
  | false => exact .inr ⟨rfl, c, fun k => by simp⟩

/-- Settled lines stay settled through any channel's part of a SHOW. -/
theorem linesSettled_channelEvents {P : Params} {ls : LineState} (h : LinesSettled P ls) (c : ChanIdx)
    (x : Option ChannelCfg) : LinesSettled P (ls.applyAll (channelEvents P c x)) := by
  cases x with
  | none => exact h
  | some cfg => exact linesSettled_configured P c cfg h.1

/-- A whole SHOW leaves settled lines settled (R197, R274). -/
theorem linesSettled_showEvents {P : Params} {ls : LineState} (h : LinesSettled P ls)
    (chan : Vector (Option ChannelCfg) 4) : LinesSettled P (ls.applyAll (showEvents P chan)) := by
  simp only [showEvents_eq, applyAll_append]
  exact linesSettled_channelEvents (linesSettled_channelEvents (linesSettled_channelEvents
    (linesSettled_channelEvents h 0 _) 1 _) 2 _) 3 _

/-- INIT makes every line an output (R221). -/
theorem applyAll_initEvents_mode (ls : LineState) (l : Line) : (ls.applyAll initEvents).mode.get l = .output := by
  rw [applyAll_initEvents]
  exact PerLine.get_const (α := LineMode) .output l

/-- INIT settles the lines, whatever they were (R221, R274). -/
theorem linesSettled_initEvents (P : Params) (ls : LineState) : LinesSettled P (ls.applyAll initEvents) := by
  refine ⟨applyAll_initEvents_mode ls, ?_⟩
  rw [applyAll_initEvents]
  exact ⟨rfl, rfl, .inl fun k => PerLine.get_const (α := Bool) true (.sel k)⟩

/-! ### The lines follow INIT -/

/-- Driving the head of PENDING leaves the lines that driving all of it leads to. -/
theorem sequencerStep_settles (s : State) :
    (sequencerStep s).lines.applyAll (sequencerStep s).pending = s.lines.applyAll s.pending := by
  rw [sequencerStep_lines, sequencerStep_pending, ← applyAll_append, ← List.drop_one, List.take_append_drop]

theorem allWrites_tail {es : List Event} (h : AllWrites es) : AllWrites es.tail :=
  fun e he => h e (List.mem_of_mem_tail he)

theorem sequencerStep_keeps_linesFollowInit {s : State} (hs : LinesFollowInit s) :
    LinesFollowInit (sequencerStep s) := by
  obtain ⟨hbefore, hafter⟩ := hs
  constructor
  · intro hd
    rw [sequencerStep_initDone] at hd
    rw [sequencerStep_idle (hbefore hd).2]
    exact hbefore hd
  · intro hd
    rw [sequencerStep_initDone] at hd
    obtain ⟨hm, hw, hset⟩ := hafter hd
    rw [sequencerStep_mode hw, sequencerStep_settles, sequencerStep_pending]
    exact ⟨hm, allWrites_tail hw, hset⟩

/-- A reset makes every line an input and drops what is pending (R270). -/
theorem linesFollowInit_resetBlock (s : State) : LinesFollowInit (resetBlock s) :=
  ⟨fun _ => ⟨fun l => by simp, rfl⟩, fun h => by simp at h⟩

/-- The invariant speaks of INIT_DONE, the lines and PENDING alone. -/
theorem linesFollowInit_of_eq {s t : State} (hd : t.initDone = s.initDone) (hl : t.lines = s.lines)
    (hp : t.pending = s.pending) (hs : LinesFollowInit s) : LinesFollowInit t := by
  unfold LinesFollowInit at hs ⊢
  rw [hd, hl, hp]
  exact hs

/-- After INIT the invariant asks for outputs, writes and lines that settle. -/
theorem linesFollowInit_of_initDone {s : State} (hd : s.initDone = true) (hm : ∀ l, s.lines.mode.get l = .output)
    (hw : AllWrites s.pending) (hset : LinesSettled Config.params (s.lines.applyAll s.pending)) :
    LinesFollowInit s :=
  ⟨fun h => by simp [hd] at h, fun _ => ⟨hm, hw, hset⟩⟩

/-- INIT settles the lines, an accepted SHOW leaves them settled at its end, and no other command touches them. -/
theorem exec_keeps_linesFollowInit {i : Instr} {s t : State} (hs : LinesFollowInit s) (hp : s.pending = [])
    (ht : exec i s = .next t) : LinesFollowInit t := by
  rcases exec_control_cases ht with ⟨hd, -, hl, hp', -⟩ | ⟨-, -, hd, -, hl, hp', -⟩ | ⟨-, hd, hd', -, hl, hp', -⟩ |
      ⟨-, -, hd, -, hl, hp', -⟩
  · exact linesFollowInit_of_eq hd hl hp' hs
  · refine linesFollowInit_of_initDone hd ?_ ?_ ?_
    · rw [hl]
      exact applyAll_initEvents_mode _
    · simp [hp', hp, AllWrites]
    · rw [hl, hp', hp, applyAll_nil]
      exact linesSettled_initEvents _ _
  · obtain ⟨hm, -, hset⟩ := hs.2 hd
    rw [hp, applyAll_nil] at hset
    refine linesFollowInit_of_initDone (hd'.trans hd) ?_ ?_ ?_
    · rwa [hl]
    · rw [hp']
      exact writes_showEvents _ _
    · rw [hl, hp']
      exact linesSettled_showEvents hset _
  · exact linesFollowInit_of_eq hd hl hp' hs

/-- Settles O55: the sequencer, a reset and every command keep it; and with nothing pending the lines it promises are
the lines there are. -/
theorem linesKeepFollowingInit : Obligations.LinesKeepFollowingInit := by
  constructor
  · intro s t hs hst
    exact step_keeps (I := LinesFollowInit)
      (hseq := fun _ => sequencerStep_keeps_linesFollowInit)
      (hin := fun _ _ h => h)
      (hreset := fun s _ => linesFollowInit_resetBlock s)
      (hexec := fun _ _ _ h hp ht => exec_keeps_linesFollowInit h hp ht)
      (hresp := fun _ _ _ h => h)
      hs hst
  · intro s hs hclean hd
    obtain ⟨-, -, hset⟩ := hs.2 hd
    rw [hclean.2, applyAll_nil] at hset
    exact ⟨hclean, hd, hset⟩

/-! ### The pins follow the trace -/

/-- Two line states show the same pins for the same reasons: equal MODE, and equal LAT on the second's outputs. -/
def PinsAgree (ls ls' : LineState) : Prop :=
  (∀ l, ls.mode.get l = ls'.mode.get l) ∧ ∀ l, ls'.mode.get l = .output → ls.lat.get l = ls'.lat.get l

theorem pinsFollowTrace_iff (s : State) :
    PinsFollowTrace s ↔ PinsAgree (replay s.tr) s.lines ∧ AllWrites s.pending := and_assoc.symm

/-- The same writes on both sides keep the pins in agreement. -/
theorem pinsAgree_applyAll_writes {es : List Event} (hw : AllWrites es) {ls ls' : LineState} (h : PinsAgree ls ls') :
    PinsAgree (ls.applyAll es) (ls'.applyAll es) := by
  induction es generalizing ls ls' with
  | nil => exact h
  | cons e es ih =>
    obtain ⟨l, v, rfl⟩ := hw e List.mem_cons_self
    refine ih (fun e he => hw e (List.mem_cons_of_mem _ he)) ⟨h.1, fun l' ho => ?_⟩
    simp only [apply_write_lat, PerLine.get_set]
    rw [h.2 l' ho]

/-- INIT leaves the same lines, whatever they were. -/
theorem pinsAgree_initEvents (ls ls' : LineState) : PinsAgree (ls.applyAll initEvents) (ls'.applyAll initEvents) := by
  rw [applyAll_initEvents, applyAll_initEvents]
  exact ⟨fun _ => rfl, fun _ _ => rfl⟩

theorem sequencerStep_keeps_pinsFollowTrace {s : State} (hs : PinsFollowTrace s) :
    PinsFollowTrace (sequencerStep s) := by
  rw [pinsFollowTrace_iff] at hs ⊢
  obtain ⟨hagree, hw⟩ := hs
  rw [sequencerStep_tr, sequencerStep_lines, sequencerStep_pending, replay_append]
  exact ⟨pinsAgree_applyAll_writes (fun e he => hw e (List.mem_of_mem_take he)) hagree, allWrites_tail hw⟩

/-- After a reset every line is an input, in the trace as in the block (R33, R271). -/
theorem pinsFollowTrace_resetBlock (s : State) : PinsFollowTrace (resetBlock s) := by
  rw [pinsFollowTrace_iff, resetBlock_tr, replay_append]
  exact ⟨⟨fun _ => rfl, fun l ho => by simp at ho⟩, nofun⟩

/-- INIT's events go to the lines and to the trace alike, and an accepted SHOW has only writes pending. -/
theorem exec_keeps_pinsFollowTrace {i : Instr} {s t : State} (hs : PinsFollowTrace s) (ht : exec i s = .next t) :
    PinsFollowTrace t := by
  rw [pinsFollowTrace_iff] at hs ⊢
  obtain ⟨hagree, hw⟩ := hs
  rcases exec_control_cases ht with ⟨-, -, hl, hp, htr⟩ | ⟨-, -, -, -, hl, hp, htr⟩ | ⟨-, -, -, -, hl, hp, htr⟩ |
      ⟨-, -, -, -, hl, hp, htr⟩ <;> rw [hl, hp, htr]
  · exact ⟨hagree, hw⟩
  · rw [replay_append]
    exact ⟨pinsAgree_initEvents _ _, hw⟩
  · exact ⟨hagree, writes_showEvents _ _⟩
  · exact ⟨hagree, hw⟩

/-- Settles O56: whatever performs an event performs it on the lines and appends it to the trace. -/
theorem pinsKeepFollowingTrace : Obligations.PinsKeepFollowingTrace := by
  intro s t hs hst
  exact step_keeps (I := PinsFollowTrace)
    (hseq := fun _ => sequencerStep_keeps_pinsFollowTrace)
    (hin := fun _ _ h => h)
    (hreset := fun s _ => pinsFollowTrace_resetBlock s)
    (hexec := fun _ _ _ h _ ht => exec_keeps_pinsFollowTrace h ht)
    (hresp := fun _ _ _ h => h)
    hs hst

end Sys2Proof.Machine

/-! ## The pixel store and the command words that reach it (20_memory R51, R54, R55, R59, R60) -/

namespace Sys2Proof.Machine

/-- Settles O48: it is the law of the step for a word that decodes on a free port. -/
theorem stepRunsDecodedCommand : Obligations.StepRunsDecodedCommand :=
  fun _ _ _ _ hin hp hd => step_of_command hin hp hd

/-! ### A pixel on the wire -/

/-- HDR_PREFIX stands above BRIGHTNESS: the header byte is 0xE0 | BRIGHTNESS (R144). -/
theorem hdr_eq (P : Params) : hdr P = 0xE0#8 ||| P.brightness.setWidth 8 := rfl

/-- A pixel clocks its own bits whatever DAT was, since every byte does (R54, R145). -/
theorem bits_pixelOut (d : Bool) (P : Params) (p : Pixel) (gm : Bool) :
    bits d (pixelOut P p gm) = pixelBits P gm p := by
  simp only [pixelOut, pixelBits, bits_append, bits_writeByte]

/-- Settles O36: the four bytes are the header and the three colours after the gamma step. -/
theorem pixelWireOrder : Obligations.PixelWireOrder := by
  intro P p gm d
  refine ⟨hdr P, gc P gm p.b, gc P gm p.g, gc P gm p.r, hdr_eq P, rfl, rfl, rfl, ?_⟩
  rw [bits_pixelOut]
  rfl

/-! ### What the reads answer -/

/-- What RDPX answers (R102). -/
def rdpxAnswer (s : State) (ch ix : Byte) : Response :=
  if s.fault then ⟨.faulted, 0⟩
  else
    match locate s ch ix with
    | .error e => ⟨e, 0⟩
    | .at _ p => ⟨.ok, pixView p⟩

/-- What RDCFG answers (R103). -/
def rdcfgAnswer (s : State) (ch : Byte) : Response :=
  if s.fault then ⟨.faulted, 0⟩
  else
    match channelIndex ch with
    | none => ⟨.invalidChannel, 0⟩
    | some c => ⟨.ok, cfgView (chanAt s.chan c)⟩

/-- RDPX gives its answer and changes nothing else. -/
theorem exec_rdpx (ch ix : Byte) (s : State) :
    exec (.rdpx ch ix) s = .next { s with responses := s.responses ++ [rdpxAnswer s ch ix] } := by
  cases hf : s.fault with
  | true => simp [exec, execRdpx, rdpxAnswer, unlessFaulted_of_fault, hf, raise, respond]
  | false =>
    cases hl : locate s ch ix <;>
      simp [exec, execRdpx, rdpxAnswer, unlessFaulted_of_no_fault, hf, hl, raise, respond]

/-- RDCFG gives its answer and changes nothing else. -/
theorem exec_rdcfg (ch : Byte) (s : State) :
    exec (.rdcfg ch) s = .next { s with responses := s.responses ++ [rdcfgAnswer s ch] } := by
  cases hf : s.fault with
  | true => simp [exec, execRdcfg, rdcfgAnswer, unlessFaulted_of_fault, hf, raise, respond]
  | false =>
    cases hc : channelIndex ch <;>
      simp [exec, execRdcfg, rdcfgAnswer, unlessFaulted_of_no_fault, hf, hc, raise, respond]

/-- Settles O17: no answer depends on the responses given before. -/
theorem readsRepeat : Obligations.ReadsRepeat := by
  intro i s hi
  cases i with
  | rdpx ch ix => exact ⟨rdpxAnswer s ch ix, exec_rdpx ch ix s, exec_rdpx ch ix _⟩
  | rdcfg ch => exact ⟨rdcfgAnswer s ch, exec_rdcfg ch s, exec_rdcfg ch _⟩
  | rdstat => exact ⟨⟨.ok, statView bright s.fault s.initDone⟩, rfl, rfl⟩
  | nop | init | cfg | setpx | showCmd => cases hi

/-! ### Two pixels of the store -/

/-- No two channel numbers name the same channel (R73). -/
theorem channelIndex_injective {ch ch' : Byte} {c : ChanIdx} (h : channelIndex ch = some c)
    (h' : channelIndex ch' = some c) : ch = ch' := by
  rw [channelIndex_eq_some_iff] at h h'
  exact BitVec.eq_of_toNat_eq (h.trans h'.symm)

/-- The operand checks read the storage alone. -/
theorem locate_of_chan_eq {s t : State} (h : t.chan = s.chan) (ch ix : Byte) : locate t ch ix = locate s ch ix := by
  simp only [locate, pixRead, h]

/-- Replacing pixel i of channel c leaves every other operand pair leading where it led (R51). -/
theorem locate_of_other_pixel_set {s t : State} {c : ChanIdx} {cfg : ChannelCfg} {i : Nat} {p : Pixel} {ch ix : Byte}
    (hcfg : chanAt s.chan c = some cfg)
    (ht : t.chan = s.chan.set c (some { cfg with pix := cfg.pix.set i p }))
    (hne : channelIndex ch = some c → i ≠ ix.toNat) : locate t ch ix = locate s ch ix := by
  unfold locate
  cases hi : channelIndex ch with
  | none => rfl
  | some c' =>
    by_cases hc : c' = c
    · subst hc
      simp [pixRead, ht, chanAt_set, hcfg, List.getElem?_set_ne (hne hi)]
    · simp [pixRead, ht, chanAt_set, hc]

/-- Everything SETPX can do: it answers an error and changes nothing, or it replaces one pixel of the channel that CH
names (R101). -/
theorem exec_setpx_cases (ch ix r g b : Byte) (s : State) :
    (∃ e, exec (.setpx ch ix r g b) s = .next (raise e s)) ∨
      ∃ c cfg, channelIndex ch = some c ∧ chanAt s.chan c = some cfg ∧
        exec (.setpx ch ix r g b) s =
          .next (respond .ok 0 (setChan s c (some { cfg with pix := cfg.pix.set ix.toNat ⟨r, g, b⟩ }))) := by
  rcases exec_cases (.setpx ch ix r g b) s with ⟨-, -, h⟩ | ⟨e, -, -, -, -, h⟩ | ⟨_, ⟨⟩, -⟩ | ⟨⟨⟩, -⟩ |
      ⟨_, _, _, _, ⟨⟩, -⟩ | ⟨_, _, _, _, _, c, cfg, ⟨⟩, -, hc, hcfg, -, h⟩ | ⟨⟨⟩, -⟩ | ⟨⟨⟩, -⟩ | ⟨⟨⟩, -⟩
  · exact .inl ⟨.faulted, h⟩
  · exact .inl ⟨e, h⟩
  · exact .inr ⟨c, cfg, hc, hcfg, h⟩

/-- After a SETPX every other operand pair leads where it led, and FAULT is as it was (R28, R51). -/
theorem exec_setpx_frame {ch ix r g b ch' ix' : Byte} {s t : State} (ht : exec (.setpx ch ix r g b) s = .next t)
    (hne : (ch', ix') ≠ (ch, ix)) : t.fault = s.fault ∧ locate t ch' ix' = locate s ch' ix' := by
  rcases exec_setpx_cases ch ix r g b s with ⟨e, h⟩ | ⟨c, cfg, hc, hcfg, h⟩ <;> cases h.symm.trans ht
  · exact ⟨rfl, locate_of_chan_eq rfl ch' ix'⟩
  · refine ⟨rfl, locate_of_other_pixel_set hcfg rfl fun hc' hix => hne ?_⟩
    rw [channelIndex_injective hc' hc, BitVec.eq_of_toNat_eq hix]

/-- Settles O15: RDPX reads FAULT and where its operands lead, and SETPX leaves both. -/
theorem setpxLeavesOtherPixels : Obligations.SetpxLeavesOtherPixels := by
  intro ch ix r g b ch' ix' s t resp ht hne hread
  obtain ⟨hfault, hlocate⟩ := exec_setpx_frame ht hne
  have hresp : rdpxAnswer s ch' ix' = resp := by simpa [exec_rdpx] using hread
  rw [exec_rdpx, ← hresp, rdpxAnswer, rdpxAnswer, hfault, hlocate]

end Sys2Proof.Machine

/-! ## Command words and the host binding (30_encoding) -/

namespace Sys2Proof

/-! ### A word whose unused bits are 0 is packed from its own fields (R71, R72)

The formats C, I, K and N use fewer fields each than the one before, and their slice of unused bits is wider. -/

section
variable {w : Word} {op : Byte} (hop : opField w = op)
include hop

theorem packFields_fields (h1 : rsv1Field w = 0#7) (h2 : rsv2Field w = 0#8) :
    packFields op (chField w) (ixField w) (gmField w) (rField w) (gField w) (bField w) = w := by
  apply word_ext_fields <;> simp [hop, h1, h2]

theorem packFields_formatP (h : w.extractLsb' 24 16 = 0#16) :
    packFields op (chField w) (ixField w) false (rField w) (gField w) (bField w) = w := by
  have hgm : gmField w = false := gmField_eq_false_of_slice h (by omega) (by omega)
  rw [← hgm]
  exact packFields_fields hop (extractLsb'_eq_zero_of_slice h (by omega) (by omega))
    (extractLsb'_eq_zero_of_slice h (by omega) (by omega))

theorem packFields_formatC (h1 : rsv1Field w = 0#7) (h : w.extractLsb' 0 32 = 0#32) :
    packFields op (chField w) (ixField w) (gmField w) 0#8 0#8 0#8 = w := by
  have hr : rField w = 0#8 := extractLsb'_eq_zero_of_slice h (by omega) (by omega)
  have hg : gField w = 0#8 := extractLsb'_eq_zero_of_slice h (by omega) (by omega)
  have hb : bField w = 0#8 := extractLsb'_eq_zero_of_slice h (by omega) (by omega)
  simpa only [hr, hg, hb] using packFields_fields hop h1 (extractLsb'_eq_zero_of_slice h (by omega) (by omega))

theorem packFields_formatI (h : w.extractLsb' 0 40 = 0#40) :
    packFields op (chField w) (ixField w) false 0#8 0#8 0#8 = w := by
  have hgm : gmField w = false := gmField_eq_false_of_slice h (by omega) (by omega)
  rw [← hgm]
  exact packFields_formatC hop (extractLsb'_eq_zero_of_slice h (by omega) (by omega))
    (extractLsb'_eq_zero_of_slice h (by omega) (by omega))

theorem packFields_formatK (h : w.extractLsb' 0 48 = 0#48) :
    packFields op (chField w) 0#8 false 0#8 0#8 0#8 = w := by
  have hix : ixField w = 0#8 := extractLsb'_eq_zero_of_slice h (by omega) (by omega)
  simpa only [hix] using packFields_formatI hop (extractLsb'_eq_zero_of_slice h (by omega) (by omega))

theorem packFields_formatN (h : w.extractLsb' 0 56 = 0#56) : packFields op 0#8 0#8 false 0#8 0#8 0#8 = w := by
  have hch : chField w = 0#8 := extractLsb'_eq_zero_of_slice h (by omega) (by omega)
  simpa only [hch] using packFields_formatK hop (extractLsb'_eq_zero_of_slice h (by omega) (by omega))

end

/-! ### Decoding and encoding are inverse (R80) -/

/-- Settles O2: the fields of a packed word are what was packed, and the bits its format does not use are 0. -/
theorem decodeOfEncode : Obligations.DecodeOfEncode := by
  intro i
  cases i <;> simp [encode, decode, ifUnusedZero]

/-- Settles O3: the branch of the decoder that answers has found OP and seen that the unused bits are 0. -/
theorem encodeOfDecode : Obligations.EncodeOfDecode := by
  intro w i h
  unfold decode at h
  split_ifs at h with hop hop hop hop hop hop hop hop <;>
    simp only [ifUnusedZero_eq_command_iff, Bool.and_eq_true, beq_iff_eq] at h <;>
    obtain ⟨hz, rfl⟩ := h
  · exact packFields_formatN hop hz
  · exact packFields_formatN hop hz
  · exact packFields_formatC hop hz.1 hz.2
  · exact packFields_formatP hop hz
  · exact packFields_formatN hop hz
  · exact packFields_formatI hop hz
  · exact packFields_formatK hop hz
  · exact packFields_formatN hop hz

/-- The decoder answers a command exactly on that command's word. -/
theorem decode_eq_command_iff {w : Word} {i : Instr} : decode w = .command i ↔ encode i = w :=
  ⟨encodeOfDecode w i, fun h => h ▸ decodeOfEncode i⟩

/-- Settles O1: the assembler and the decoder are run on the rows of R86. -/
theorem workedEncodingsAgree : Obligations.WorkedEncodingsAgree := by
  unfold Obligations.WorkedEncodingsAgree
  decide

/-! ### The opcode table (R77) -/

/-- A command's word selects exactly the rows that bear its mnemonic. -/
theorem selects_encode (i : Instr) {r : OpcodeRow} (hr : r ∈ opcodeTable) :
    r.selects (encode i) = true ↔ i.mnemonic = r.mnemonic := by
  have key : Laws.TableRow.Statement i := by
    cases i with
    | nop => exact Laws.TableRow.nop
    | init => exact Laws.TableRow.init
    | cfg ch n gm => exact Laws.TableRow.cfg ch n gm
    | setpx ch ix r g b => exact Laws.TableRow.setpx ch ix r g b
    | showCmd => exact Laws.TableRow.showCmd
    | rdpx ch ix => exact Laws.TableRow.rdpx ch ix
    | rdcfg ch => exact Laws.TableRow.rdcfg ch
    | rdstat => exact Laws.TableRow.rdstat
  rw [key r hr, beq_iff_eq, eq_comm]

theorem exists_row_of_mnemonic (i : Instr) : ∃ r ∈ opcodeTable, i.mnemonic = r.mnemonic := by
  cases i <;> simp [opcodeTable, Instr.mnemonic]

theorem row_eq_of_mnemonic : ∀ r ∈ opcodeTable, ∀ r' ∈ opcodeTable, r.mnemonic = r'.mnemonic → r = r' := by
  decide

/-- Where the mask of a row has only 1s, a word that selects the row has the bits of the row. -/
theorem slice_of_selects {r : OpcodeRow} {w : Word} (h : r.selects w = true) {lo len : Nat}
    (hm : r.mask.extractLsb' lo len = BitVec.allOnes len) : w.extractLsb' lo len = r.fixed.extractLsb' lo len := by
  have hand : w &&& r.mask = r.fixed := by simpa [OpcodeRow.selects] using h
  rw [← hand, BitVec.extractLsb'_and, hm, BitVec.and_allOnes]

/-- A word that selects a row is the word of some command: the row fixes OP and the unused bits of its format. -/
theorem encode_of_selects {r : OpcodeRow} {w : Word} (hr : r ∈ opcodeTable) (h : r.selects w = true) :
    ∃ i, encode i = w := by
  simp only [opcodeTable, List.mem_cons, List.not_mem_nil, or_false] at hr
  rcases hr with rfl | rfl | rfl | rfl | rfl | rfl | rfl | rfl
  · exact ⟨.nop, packFields_formatN (slice_of_selects h (by decide)) (slice_of_selects h (by decide))⟩
  · exact ⟨.init, packFields_formatN (slice_of_selects h (by decide)) (slice_of_selects h (by decide))⟩
  · exact ⟨.cfg (chField w) (ixField w) (gmField w), packFields_formatC (slice_of_selects h (by decide))
      (slice_of_selects h (by decide)) (slice_of_selects h (by decide))⟩
  · exact ⟨.setpx (chField w) (ixField w) (rField w) (gField w) (bField w),
      packFields_formatP (slice_of_selects h (by decide)) (slice_of_selects h (by decide))⟩
  · exact ⟨.showCmd, packFields_formatN (slice_of_selects h (by decide)) (slice_of_selects h (by decide))⟩
  · exact ⟨.rdpx (chField w) (ixField w),
      packFields_formatI (slice_of_selects h (by decide)) (slice_of_selects h (by decide))⟩
  · exact ⟨.rdcfg (chField w), packFields_formatK (slice_of_selects h (by decide)) (slice_of_selects h (by decide))⟩
  · exact ⟨.rdstat, packFields_formatN (slice_of_selects h (by decide)) (slice_of_selects h (by decide))⟩

/-- A row is selected by the words of its commands and by no other word. -/
theorem selects_iff {r : OpcodeRow} (hr : r ∈ opcodeTable) (w : Word) :
    r.selects w = true ↔ ∃ i, decode w = .command i ∧ i.mnemonic = r.mnemonic := by
  simp only [decode_eq_command_iff]
  constructor
  · intro h
    obtain ⟨i, rfl⟩ := encode_of_selects hr h
    exact ⟨i, rfl, (selects_encode i hr).1 h⟩
  · rintro ⟨i, rfl, hi⟩
    exact (selects_encode i hr).2 hi

/-- Settles O4: a row is selected exactly by its commands' words, and every command has one row. -/
theorem tableDecidesDecoding : Obligations.TableDecidesDecoding := by
  intro w
  refine ⟨fun r hr r' hr' h h' => ?_, fun r hr => selects_iff hr w, fun h => ?_, ?_⟩
  · obtain ⟨i, hd, hi⟩ := (selects_iff hr w).1 h
    obtain ⟨i', hd', hi'⟩ := (selects_iff hr' w).1 h'
    cases hd.symm.trans hd'
    exact row_eq_of_mnemonic r hr r' hr' (hi.symm.trans hi')
  · cases hd : decode w with
    | illegal why => exact ⟨why, rfl⟩
    | command i =>
      obtain ⟨r, hr, hi⟩ := exists_row_of_mnemonic i
      exact absurd ((selects_iff hr w).2 ⟨i, hd, hi⟩) (by simp [h r hr])
  · rintro ⟨why, hd⟩ r hr
    rw [Bool.eq_false_iff]
    intro h
    obtain ⟨i, hi, -⟩ := (selects_iff hr w).1 h
    cases hd.symm.trans hi

/-- No command's word is Illegal by R78 or R79. -/
theorem not_reserved_or_unusedBitSet_encode (i : Instr) :
    ¬ (8 ≤ (opField (encode i)).toNat ∨ unusedBitSet (encode i)) := by
  cases i <;> simp [encode, unusedBitSet]

end Sys2Proof

namespace Sys2Proof.Machine

/-! ### What the block answers (R78, R79, R84, R190, R240) -/

/-- Settles O5: a command's word is none of these, so the decoder answers Illegal. -/
theorem illegalWordsAnswered : Obligations.IllegalWordsAnswered := by
  intro s w rest hin hp hw
  cases hd : decode w with
  | illegal why => exact step_of_illegal hin hp hd
  | command i =>
    obtain rfl := decode_eq_command_iff.1 hd
    exact absurd hw (not_reserved_or_unusedBitSet_encode i)

@[simp] theorem extractLsb'_unused_pack (r : Response) : r.pack.extractLsb' 36 28 = 0#28 := by
  ext i hi
  have hstatus : 4 ≤ 36 + i - 32 := by omega
  have hdata : 32 ≤ 36 + i := by omega
  simp [Response.pack, BitVec.getLsbD_of_ge _ _ hstatus, BitVec.getLsbD_of_ge _ _ hdata]

@[simp] theorem extractLsb'_status_pack (r : Response) : r.pack.extractLsb' 32 4 = r.status.code := by
  ext i hi
  have h0 : 32 + i < 64 := by omega
  simp [Response.pack, h0, hi]

@[simp] theorem extractLsb'_data_pack (r : Response) : r.pack.extractLsb' 0 32 = r.data := by
  ext i hi
  have h0 : i < 64 := by omega
  simp [Response.pack, h0, hi]

/-- Settles O6: each field of the packed word is what was packed, and each code is the one R240 lists. -/
theorem responseWordLayout : Obligations.ResponseWordLayout :=
  ⟨fun r => ⟨extractLsb'_unused_pack r, extractLsb'_status_pack r, extractLsb'_data_pack r⟩,
    rfl, rfl, rfl, rfl, rfl, rfl, rfl, rfl⟩

/-- Settles O22: every answer of a command is one of those `exec_cases` lists; only a read answers a value. -/
theorem oneResponsePerCommand : Obligations.OneResponsePerCommand := by
  intro i s
  rcases exec_cases i s with ⟨-, -, h⟩ | ⟨e, -, -, -, -, h⟩ | ⟨d, hread, h⟩ | ⟨-, -, h⟩ |
      ⟨ch, n, gm, c, -, -, -, -, h⟩ | ⟨ch, ix, r, g, b, c, cfg, -, -, -, -, -, h⟩ |
      ⟨-, -, h⟩ | ⟨hi, -, -, h⟩ | ⟨-, -, -, h⟩ <;>
    refine ⟨_, h, ?_⟩
  · exact .inl ⟨_, rfl, by simp⟩
  · exact .inl ⟨_, rfl, by simp⟩
  · exact .inl ⟨_, rfl, fun _ => ⟨rfl, hread⟩⟩
  · exact .inl ⟨_, rfl, by simp⟩
  · exact .inl ⟨_, rfl, by simp⟩
  · exact .inl ⟨_, rfl, by simp⟩
  · exact .inl ⟨⟨.ok, 0⟩, by simp [performAll_eq], by simp⟩
  · rw [startShow_eq]
    by_cases hes : showEvents Config.params s.chan = []
    · exact .inl ⟨⟨.ok, 0⟩, by simp [hes], by simp⟩
    · exact .inr ⟨hi, by simp [hes], hes⟩
  · exact .inl ⟨_, rfl, by simp⟩

/-! ### What the host binding sends (R83, R85) -/

theorem sendColour_toNat (v : Int) : ((sendColour v).toNat : Int) = v % 256 := by
  rw [sendColour, BitVec.toNat_ofInt]
  exact Int.toNat_of_nonneg (Int.emod_nonneg v (by decide))

theorem sendChannel_toNat {v : Int} (h0 : 0 ≤ v) (h255 : v ≤ 255) : ((sendChannel v).toNat : Int) = v := by
  have hsend : sendChannel v = sendColour v := if_pos ⟨h0, h255⟩
  rw [hsend, sendColour_toNat]
  omega

theorem sendChannel_of_out_of_range {v : Int} (h : v < 0 ∨ 255 < v) : sendChannel v = 0 :=
  if_neg (by omega)

/-- An invalid channel number stays invalid, and a valid one valid (R73). -/
theorem channelIndex_sendChannel_eq_none_iff (v : Int) : channelIndex (sendChannel v) = none ↔ v < 1 ∨ 4 < v := by
  rw [channelIndex_eq_none_iff]
  by_cases h : 0 ≤ v ∧ v ≤ 255
  · have := sendChannel_toNat h.1 h.2
    omega
  · have hzero : (sendChannel v).toNat = 0 := by
      rw [sendChannel_of_out_of_range (by omega)]
      rfl
    omega

theorem sendIx_of_gt {v : Int} (h : 255 < v) : sendIx v = some 255 := by
  rw [sendIx, if_neg (by omega), if_neg (by omega)]

/-- A count or an index that is sent is sent saturated at 255. -/
theorem toNat_of_sendIx {v : Int} {x : Byte} (h : sendIx v = some x) : (x.toNat : Int) = min v 255 := by
  have h0 : ¬ v < 0 := fun hv => by simp [(sendIx_eq_none_iff v).2 hv] at h
  by_cases h255 : v ≤ 255
  · have hx : x = sendColour v := by simpa [sendIx, sendColour, h0, h255, eq_comm] using h
    rw [hx, sendColour_toNat]
    omega
  · cases (sendIx_of_gt (by omega)).symm.trans h
    exact (min_eq_right (by omega)).symm

theorem sendIx_of_le {v : Int} (h0 : 0 ≤ v) (h255 : v ≤ 255) :
    ∃ x, sendIx v = some x ∧ (x.toNat : Int) = v := by
  obtain ⟨x, hx⟩ := Option.isSome_iff_exists.1 ((sendIx_isSome v).trans (decide_eq_true h0))
  exact ⟨x, hx, (toNat_of_sendIx hx).trans (min_eq_left h255)⟩

/-- The gamma operand names its flag (R82). -/
theorem bindLine_cfg (ch n : Int) (gm : Bool) : bindLine (.cfg ch n (if gm then 1 else 0)) =
    (sendIx n).map fun x => .cfg (sendChannel ch) x gm := by
  cases hn : sendIx n <;> cases gm <;> simp [bindLine, sendGamma, hn]

/-- Settles O7: each operand by the value it is sent as; a saturated count or index is still above 16. -/
theorem hostBindingKeepsOutcomes : Obligations.HostBindingKeepsOutcomes := by
  refine ⟨fun v => ⟨sendColour_toNat v, sendChannel_toNat, sendChannel_of_out_of_range, (sendIx_eq_none_iff v).2,
    sendIx_of_le, sendIx_of_gt, channelIndex_sendChannel_eq_none_iff v, fun x hx hv => ?_,
    fun x count hx hcount hv => ?_⟩, fun _ _ _ _ _ => rfl, bindLine_cfg, fun _ _ => rfl, fun _ => rfl,
    fun ch n => (bindLine_cfg ch n false).symm, fun _ _ => rfl⟩
  · have := toNat_of_sendIx hx
    omega
  · have := toNat_of_sendIx hx
    omega

end Sys2Proof.Machine

/-! ## The channel storage commands (40_device_model R100 to R107) -/

namespace Sys2Proof

/-- No command's word has a bit set that its format does not use (R79). -/
theorem not_unusedBitSet_encode (i : Instr) : ¬ unusedBitSet (encode i) :=
  fun h => not_reserved_or_unusedBitSet_encode i (.inr h)

end Sys2Proof

namespace Sys2Proof.Machine

/-! ### Where an operand pair leads (R242) -/

theorem channelIndex_ne_none_iff (ch : Byte) : channelIndex ch ≠ none ↔ 1 ≤ ch.toNat ∧ ch.toNat ≤ 4 := by
  rw [ne_eq, channelIndex_eq_none_iff]
  omega

section
variable {s : State} {ch ix : Byte} {c : ChanIdx} {cfg : ChannelCfg} {p : Pixel}

theorem locate_of_invalid (hc : channelIndex ch = none) : locate s ch ix = .error .invalidChannel := by
  simp [locate, hc]

theorem locate_of_absent (hc : channelIndex ch = some c) (ha : chanAt s.chan c = none) :
    locate s ch ix = .error .channelNotConfigured := by
  simp [locate, hc, ha]

theorem locate_of_index_ge (hc : channelIndex ch = some c) (hcfg : chanAt s.chan c = some cfg)
    (hix : cfg.pix.length ≤ ix.toNat) : locate s ch ix = .error .indexOutOfRange := by
  simp [locate, pixRead, hc, hcfg, List.getElem?_eq_none hix]

theorem locate_of_pixel (hc : channelIndex ch = some c) (hcfg : chanAt s.chan c = some cfg)
    (hp : cfg.pix[ix.toNat]? = some p) : locate s ch ix = .at c p := by
  simp [locate, pixRead, hc, hcfg, hp]

end

/-! ### What each command answers while FAULT = 0 -/

section
variable {s : State} (hf : s.fault = false)
include hf

theorem exec_cfg_of_invalid {ch : Byte} (hc : channelIndex ch = none) (n : Byte) (gm : Bool) :
    exec (.cfg ch n gm) s = .next (raise .invalidChannel s) := by
  simp [exec, execCfg, unlessFaulted_of_no_fault hf, hc]

theorem exec_cfg_of_too_many {ch n : Byte} {c : ChanIdx} (hc : channelIndex ch = some c) (hn : 16 < n.toNat)
    (gm : Bool) : exec (.cfg ch n gm) s = .next (raise .tooManyPixels s) := by
  simp [exec, execCfg, unlessFaulted_of_no_fault hf, hc, countFits_iff, hn]

theorem exec_cfg_of_valid {ch n : Byte} {c : ChanIdx} (hc : channelIndex ch = some c) (hn : n.toNat ≤ 16)
    (gm : Bool) :
    exec (.cfg ch n gm) s = .next (respond .ok 0 (setChan s c (some (freshChannel n.toNat gm)))) := by
  simp [exec, execCfg, unlessFaulted_of_no_fault hf, hc, countFits_iff, hn]

theorem exec_setpx_of_error {ch ix : Byte} {e : Status} (hl : locate s ch ix = .error e) (r g b : Byte) :
    exec (.setpx ch ix r g b) s = .next (raise e s) := by
  simp [exec, execSetpx, unlessFaulted_of_no_fault hf, hl]

theorem exec_setpx_of_pixel {ch ix : Byte} {c : ChanIdx} {p : Pixel} (hl : locate s ch ix = .at c p) (r g b : Byte) :
    exec (.setpx ch ix r g b) s = .next (respond .ok 0 (pixWrite s c ix.toNat ⟨r, g, b⟩)) := by
  simp [exec, execSetpx, unlessFaulted_of_no_fault hf, hl]

theorem rdpxAnswer_of_error {ch ix : Byte} {e : Status} (hl : locate s ch ix = .error e) :
    rdpxAnswer s ch ix = ⟨e, 0⟩ := by
  simp [rdpxAnswer, hf, hl]

theorem rdpxAnswer_of_pixel {ch ix : Byte} {c : ChanIdx} {p : Pixel} (hl : locate s ch ix = .at c p) :
    rdpxAnswer s ch ix = ⟨.ok, pixView p⟩ := by
  simp [rdpxAnswer, hf, hl]

theorem rdcfgAnswer_of_invalid {ch : Byte} (hc : channelIndex ch = none) :
    rdcfgAnswer s ch = ⟨.invalidChannel, 0⟩ := by
  simp [rdcfgAnswer, hf, hc]

theorem rdcfgAnswer_of_valid {ch : Byte} {c : ChanIdx} (hc : channelIndex ch = some c) :
    rdcfgAnswer s ch = ⟨.ok, cfgView (chanAt s.chan c)⟩ := by
  simp [rdcfgAnswer, hf, hc]

end

/-! ### The fields of the read-only views (R24, R25) -/

@[simp] theorem extractLsb'_unused_pixView (p : Pixel) : (pixView p).extractLsb' 24 8 = 0#8 := by
  ext i hi
  simp only [pixView]
  interval_cases i <;> simp

@[simp] theorem extractLsb'_r_pixView (p : Pixel) : (pixView p).extractLsb' 16 8 = p.r := by
  ext i hi
  simp only [pixView]
  interval_cases i <;> simp

@[simp] theorem extractLsb'_g_pixView (p : Pixel) : (pixView p).extractLsb' 8 8 = p.g := by
  ext i hi
  simp only [pixView]
  interval_cases i <;> simp

@[simp] theorem extractLsb'_b_pixView (p : Pixel) : (pixView p).extractLsb' 0 8 = p.b := by
  ext i hi
  simp only [pixView]
  interval_cases i <;> simp

/-- PIXVIEW as a number: its four bytes, weighted. -/
theorem pixView_toNat (p : Pixel) :
    (pixView p).toNat = p.r.toNat * 65536 + p.g.toNat * 256 + p.b.toNat := by
  have hunused := congrArg BitVec.toNat (extractLsb'_unused_pixView p)
  have hr := congrArg BitVec.toNat (extractLsb'_r_pixView p)
  have hg := congrArg BitVec.toNat (extractLsb'_g_pixView p)
  have hb := congrArg BitVec.toNat (extractLsb'_b_pixView p)
  have hlt := (pixView p).isLt
  simp only [BitVec.extractLsb'_toNat, Nat.shiftRight_eq_div_pow, BitVec.toNat_ofNat] at hunused hr hg hb
  omega

@[simp] theorem extractLsb'_unused_cfgView (cfg : ChannelCfg) : (cfgView (some cfg)).extractLsb' 8 24 = 0#24 := by
  ext i hi
  simp only [cfgView]
  interval_cases i <;> simp

@[simp] theorem extractLsb'_count_cfgView (cfg : ChannelCfg) :
    (cfgView (some cfg)).extractLsb' 0 5 = BitVec.ofNat 5 cfg.pix.length := by
  ext i hi
  simp only [cfgView]
  interval_cases i <;> simp

/-- PRESENT, the reserved bit below it, and GAMMA (R24). -/
theorem getLsbD_cfgView (cfg : ChannelCfg) :
    (cfgView (some cfg)).getLsbD 7 = true ∧ (cfgView (some cfg)).getLsbD 6 = false ∧
      (cfgView (some cfg)).getLsbD 5 = cfg.gamma := by
  simp [cfgView]

/-- COUNT reads the number of pixels while it is at most MAX_PIXELS (R22). -/
theorem count_cfgView_toNat {cfg : ChannelCfg} (h : cfg.pix.length ≤ 16) :
    ((cfgView (some cfg)).extractLsb' 0 5).toNat = cfg.pix.length := by
  rw [extractLsb'_count_cfgView, BitVec.toNat_ofNat]
  omega

/-! ### Each storage command by its operands (R100 to R103) -/

/-- Settles O8: FAULT first, then CH, then the count. -/
theorem cfgConfiguresChannel : Obligations.CfgConfiguresChannel := by
  intro ch n gm s
  refine ⟨fun hf => faultBlocksCommands _ s hf (by simp),
    fun hf hch => exec_cfg_of_invalid hf ((channelIndex_eq_none_iff ch).2 hch) n gm,
    fun hf h1 h4 hn => ?_,
    fun c hf hch hn => exec_cfg_of_valid hf ((channelIndex_eq_some_iff ch c).2 hch) hn gm,
    opField_packFields .., chField_packFields .., ixField_packFields .., gmField_packFields ..,
    not_unusedBitSet_encode _⟩
  obtain ⟨c, hc⟩ := Option.ne_none_iff_exists'.1 ((channelIndex_ne_none_iff ch).2 ⟨h1, h4⟩)
  exact exec_cfg_of_too_many hf hc hn gm

/-- Settles O9: FAULT first, then where the operands lead. -/
theorem setpxWritesOnePixel : Obligations.SetpxWritesOnePixel := by
  intro ch ix r g b s
  refine ⟨fun hf => faultBlocksCommands _ s hf (by simp), fun hf hch => ?_, fun c hf hch ha => ?_,
    fun c cfg hf hch hcfg hix => ?_, fun c cfg hf hch hcfg hix => ?_, opField_packFields .., chField_packFields ..,
    ixField_packFields .., rField_packFields .., gField_packFields .., bField_packFields ..,
    not_unusedBitSet_encode _⟩
  · exact exec_setpx_of_error hf (locate_of_invalid ((channelIndex_eq_none_iff ch).2 hch)) r g b
  · exact exec_setpx_of_error hf (locate_of_absent ((channelIndex_eq_some_iff ch c).2 hch) ha) r g b
  · exact exec_setpx_of_error hf (locate_of_index_ge ((channelIndex_eq_some_iff ch c).2 hch) hcfg hix) r g b
  · have hl := locate_of_pixel ((channelIndex_eq_some_iff ch c).2 hch) hcfg (List.getElem?_eq_getElem hix)
    rw [exec_setpx_of_pixel hf hl, pixWrite_eq hcfg]
    rfl

/-- Settles O10: RDPX answers what stands where the operands lead, and PIXVIEW has the fields of R25. -/
theorem rdpxReadsPixel : Obligations.RdpxReadsPixel := by
  intro ch ix s
  refine ⟨fun hf => faultBlocksCommands _ s hf (by simp), fun hf hch => ?_, fun c hf hch ha => ?_,
    fun c cfg hf hch hcfg hix => ?_, fun c cfg p hf hch hcfg hp => ⟨pixView p, ?_, by simp⟩,
    opField_packFields .., chField_packFields .., ixField_packFields .., not_unusedBitSet_encode _⟩
  · rw [exec_rdpx, rdpxAnswer_of_error hf (locate_of_invalid ((channelIndex_eq_none_iff ch).2 hch))]
  · rw [exec_rdpx, rdpxAnswer_of_error hf (locate_of_absent ((channelIndex_eq_some_iff ch c).2 hch) ha)]
  · rw [exec_rdpx, rdpxAnswer_of_error hf (locate_of_index_ge ((channelIndex_eq_some_iff ch c).2 hch) hcfg hix)]
  · rw [exec_rdpx, rdpxAnswer_of_pixel hf (locate_of_pixel ((channelIndex_eq_some_iff ch c).2 hch) hcfg hp)]

/-- Settles O11: RDCFG answers CFGVIEW of the channel that CH names, and CFGVIEW has the fields of R24. -/
theorem rdcfgReadsView : Obligations.RdcfgReadsView := by
  intro ch s
  refine ⟨fun hf => faultBlocksCommands _ s hf (by simp), fun hf hch => ?_, fun c hf hch ha => ?_,
    fun c cfg hf hch hcfg hlen => ?_, opField_packFields .., chField_packFields .., not_unusedBitSet_encode _⟩
  · rw [exec_rdcfg, rdcfgAnswer_of_invalid hf ((channelIndex_eq_none_iff ch).2 hch)]
  · rw [exec_rdcfg, rdcfgAnswer_of_valid hf ((channelIndex_eq_some_iff ch c).2 hch), ha]
    rfl
  · obtain ⟨hpresent, hreserved, hgamma⟩ := getLsbD_cfgView cfg
    refine ⟨cfgView (some cfg), ?_, extractLsb'_unused_cfgView cfg, hpresent, hreserved, hgamma,
      count_cfgView_toNat hlen⟩
    rw [exec_rdcfg, rdcfgAnswer_of_valid hf ((channelIndex_eq_some_iff ch c).2 hch), hcfg]

/-! ### What the storage commands leave alone (R104, R107) -/

/-- The command changes the storage and answers, and reads only the storage and FAULT: every state that agrees with `s`
in these two gets the same storage and the same answer. -/
def ActsOnStorageAlone (i : Instr) (s : State) : Prop :=
  ∃ chan r, ∀ s' : State, s'.chan = s.chan → s'.fault = s.fault →
    exec i s' = .next { s' with chan := chan, responses := s'.responses ++ [r] }

theorem actsOnStorageAlone_of_answer {i : Instr} {s : State} (r : Response)
    (h : ∀ s' : State, s'.chan = s.chan → s'.fault = s.fault →
      exec i s' = .next { s' with responses := s'.responses ++ [r] }) : ActsOnStorageAlone i s := by
  refine ⟨s.chan, r, fun s' hchan hfault => ?_⟩
  rw [h s' hchan hfault, ← hchan]

theorem actsOnStorageAlone_of_setChan {i : Instr} {s : State} (c : ChanIdx) (cfg : ChannelCfg)
    (h : ∀ s' : State, s'.chan = s.chan → s'.fault = s.fault →
      exec i s' = .next (respond .ok 0 (setChan s' c (some cfg)))) : ActsOnStorageAlone i s := by
  refine ⟨s.chan.set c (some cfg), ⟨.ok, 0⟩, fun s' hchan hfault => ?_⟩
  rw [h s' hchan hfault, ← hchan]
  rfl

theorem cfg_actsOnStorageAlone {s : State} (hf : s.fault = false) (ch n : Byte) (gm : Bool) :
    ActsOnStorageAlone (.cfg ch n gm) s := by
  cases hc : channelIndex ch with
  | none =>
    exact actsOnStorageAlone_of_answer ⟨.invalidChannel, 0⟩ fun s' _ hf' =>
      exec_cfg_of_invalid (hf'.trans hf) hc n gm
  | some c =>
    by_cases hn : n.toNat ≤ 16
    · exact actsOnStorageAlone_of_setChan c _ fun s' _ hf' => exec_cfg_of_valid (hf'.trans hf) hc hn gm
    · exact actsOnStorageAlone_of_answer ⟨.tooManyPixels, 0⟩ fun s' _ hf' =>
        exec_cfg_of_too_many (hf'.trans hf) hc (by omega) gm

theorem setpx_actsOnStorageAlone {s : State} (hf : s.fault = false) (ch ix r g b : Byte) :
    ActsOnStorageAlone (.setpx ch ix r g b) s := by
  have error {e : Status} (hl : locate s ch ix = .error e) : ActsOnStorageAlone (.setpx ch ix r g b) s :=
    actsOnStorageAlone_of_answer ⟨e, 0⟩ fun s' hchan hf' =>
      exec_setpx_of_error (hf'.trans hf) ((locate_of_chan_eq hchan ch ix).trans hl) r g b
  rcases locate_cases s ch ix with ⟨-, hl⟩ | ⟨c, -, ⟨-, hl⟩ | ⟨cfg, hcfg, ⟨-, hl⟩ | ⟨_, hl⟩⟩⟩
  · exact error hl
  · exact error hl
  · exact error hl
  · refine actsOnStorageAlone_of_setChan c { cfg with pix := cfg.pix.set ix.toNat ⟨r, g, b⟩ } fun s' hchan hf' => ?_
    rw [exec_setpx_of_pixel (hf'.trans hf) ((locate_of_chan_eq hchan ch ix).trans hl), pixWrite_eq (hchan ▸ hcfg)]

/-- R104 in one lemma: INIT_DONE and the lines are neither read nor written. -/
theorem storage_actsOnStorageAlone {i : Instr} (hi : i.isStorage = true) (s : State) : ActsOnStorageAlone i s := by
  cases hf : s.fault with
  | true =>
    exact actsOnStorageAlone_of_answer ⟨.faulted, 0⟩ fun s' _ hf' =>
      faultBlocksCommands i s' (hf'.trans hf) (by rintro rfl; cases hi)
  | false =>
    cases i with
    | cfg ch n gm => exact cfg_actsOnStorageAlone hf ch n gm
    | setpx ch ix r g b => exact setpx_actsOnStorageAlone hf ch ix r g b
    | rdpx ch ix =>
      refine actsOnStorageAlone_of_answer (rdpxAnswer s ch ix) fun s' hchan hf' => ?_
      rw [exec_rdpx, rdpxAnswer, rdpxAnswer, locate_of_chan_eq hchan, hf']
    | rdcfg ch =>
      refine actsOnStorageAlone_of_answer (rdcfgAnswer s ch) fun s' hchan hf' => ?_
      rw [exec_rdcfg, rdcfgAnswer, rdcfgAnswer, hchan, hf']
    | nop | init | showCmd | rdstat => cases hi

/-- Settles O12: the state with the other INIT_DONE agrees in the storage and FAULT. -/
theorem storageCommandsIgnoreInit : Obligations.StorageCommandsIgnoreInit := by
  intro i s t b hi ht
  obtain ⟨chan, r, h⟩ := storage_actsOnStorageAlone hi s
  cases (h s rfl rfl).symm.trans ht
  exact ⟨h { s with initDone := b } rfl rfl, rfl, rfl, rfl, rfl⟩

/-- Settles O16: an error comes from FAULT, from the operands, or from a SHOW before INIT. -/
theorem errorsChangeNothing : Obligations.ErrorsChangeNothing := by
  intro i s t r ht hr hne
  have answer {r' : Response} (h : s.responses ++ [r'] = s.responses ++ [r]) : r' = r := by simpa using h
  have not_ok {d : Data} (h : s.responses ++ [⟨.ok, d⟩] = s.responses ++ [r]) : False := hne (answer h ▸ rfl)
  rcases exec_cases i s with ⟨-, -, h⟩ | ⟨e, -, -, he, -, h⟩ | ⟨d, -, h⟩ | ⟨-, -, h⟩ |
      ⟨ch, n, gm, c, -, -, -, -, h⟩ | ⟨ch, ix, r, g, b, c, cfg, -, -, -, -, -, h⟩ |
      ⟨-, -, h⟩ | ⟨-, -, -, h⟩ | ⟨hi, hf, hd, h⟩ <;>
    cases h.symm.trans ht
  · cases answer hr
    exact ⟨rfl, .inl ⟨by simp, rfl⟩⟩
  · cases answer hr
    exact ⟨rfl, .inl ⟨he, rfl⟩⟩
  · exact (not_ok hr).elim
  · exact (not_ok hr).elim
  · exact (not_ok hr).elim
  · exact (not_ok hr).elim
  · rw [performAll_eq] at hr
    exact (not_ok hr).elim
  · rw [startShow_eq] at hr
    split at hr
    · exact (not_ok hr).elim
    · simp at hr
  · cases answer hr
    exact ⟨rfl, .inr ⟨rfl, hi, hf, hd, rfl⟩⟩

/-! ### Reading back what was stored (R105, R106) -/

/-- A CFG that answered OK found FAULT = 0 and operands in range, and the channel holds a fresh record (R100). -/
theorem channel_of_cfg_ok {ch n : Byte} {gm : Bool} {s t : State} (ht : exec (.cfg ch n gm) s = .next t)
    (hok : t.responses = s.responses ++ [⟨.ok, 0⟩]) :
    t.fault = false ∧ n.toNat ≤ 16 ∧
      ∃ c, channelIndex ch = some c ∧ chanAt t.chan c = some (freshChannel n.toNat gm) := by
  rcases exec_cases (.cfg ch n gm) s with ⟨-, -, h⟩ | ⟨e, -, he, -, -, h⟩ | ⟨_, ⟨⟩, -⟩ | ⟨⟨⟩, -⟩ |
      ⟨_, _, _, c, ⟨⟩, hf, hc, hn, h⟩ | ⟨_, _, _, _, _, _, _, ⟨⟩, -⟩ | ⟨⟨⟩, -⟩ | ⟨⟨⟩, -⟩ | ⟨⟨⟩, -⟩ <;>
    cases h.symm.trans ht
  · simp at hok
  · exact absurd (by simpa using hok) he
  · exact ⟨hf, hn, c, hc, by simp [chanAt_set]⟩

/-- A SETPX that answered OK found FAULT = 0, and the pixel where its operands lead holds the colours (R101). -/
theorem pixel_of_setpx_ok {ch ix r g b : Byte} {s t : State} (ht : exec (.setpx ch ix r g b) s = .next t)
    (hok : t.responses = s.responses ++ [⟨.ok, 0⟩]) :
    t.fault = false ∧ ∃ c, locate t ch ix = .at c ⟨r, g, b⟩ := by
  rcases exec_cases (.setpx ch ix r g b) s with ⟨-, -, h⟩ | ⟨e, -, he, -, -, h⟩ | ⟨_, ⟨⟩, -⟩ | ⟨⟨⟩, -⟩ |
      ⟨_, _, _, _, ⟨⟩, -⟩ | ⟨_, _, _, _, _, c, cfg, ⟨⟩, hf, hc, hcfg, hix, h⟩ | ⟨⟨⟩, -⟩ | ⟨⟨⟩, -⟩ | ⟨⟨⟩, -⟩ <;>
    cases h.symm.trans ht
  · simp at hok
  · exact absurd (by simpa using hok) he
  · exact ⟨hf, c, locate_of_pixel (cfg := { cfg with pix := cfg.pix.set ix.toNat ⟨r, g, b⟩ }) hc
      (by simp [chanAt_set]) (List.getElem?_set_self hix)⟩

theorem freshChannel_getElem? (gm : Bool) {i n : Nat} (h : i < n) : (freshChannel n gm).pix[i]? = some ⟨0, 0, 0⟩ := by
  simp [freshChannel, h]

/-- Writing what a channel holds changes nothing. -/
theorem setChan_eq_self {s : State} {c : ChanIdx} {x : Option ChannelCfg} (h : chanAt s.chan c = x) :
    setChan s c x = s := by
  subst h
  simp [setChan, chanAt]

/-- Settles O13: the channel holds a fresh record, whose pixels are all 0, and the same CFG puts the same record. -/
theorem reconfigurationResetsPixels : Obligations.ReconfigurationResetsPixels := by
  intro ch n gm s t ht hok
  obtain ⟨hf, hn, c, hc, hfresh⟩ := channel_of_cfg_ok ht hok
  refine ⟨fun ix hix => ?_, fun ix hix => ?_, ?_⟩
  · rw [exec_rdpx, rdpxAnswer_of_pixel hf (locate_of_pixel hc hfresh (freshChannel_getElem? gm hix))]
    rfl
  · rw [exec_rdpx, rdpxAnswer_of_error hf (locate_of_index_ge hc hfresh (by simpa using hix))]
  · rw [exec_cfg_of_valid hf hc hn, setChan_eq_self hfresh]
    rfl

/-- Settles O14: both lines send the same channel number and index, and the pixel holds the colours as sent. -/
theorem storedPixelReadsBackMasked : Obligations.StoredPixelReadsBackMasked := by
  intro ch idx vr vg vb setCmd getCmd s t hset hget ht hok
  obtain ⟨ix, hix, rfl⟩ := Option.map_eq_some_iff.1 hset
  obtain rfl : .rdpx (sendChannel ch) ix = getCmd := by simpa [bindLine, hix] using hget
  obtain ⟨hf, c, hl⟩ := pixel_of_setpx_ok ht hok
  refine ⟨_, by rw [exec_rdpx, rdpxAnswer_of_pixel hf hl], ?_⟩
  rw [pixView_toNat]
  push_cast
  simp only [sendColour_toNat]

end Sys2Proof.Machine

/-! ## The framer on the wire, and the clock pulses of a SHOW (41_frame_encoder R144, R151 to R153, R155, R173) -/

namespace Sys2Proof.Machine

/-! ### Lists that write CLK in whole pulses only

R152 and R155 turn on one fact about every list the framer and the selector build: between the two writes of a clock
pulse nothing stands, and CLK is written nowhere else. -/

/-- Writes in which CLK occurs as whole pulses only (R141). -/
inductive WholePulses : List Event → Prop where
  | nil : WholePulses []
  | write {l : Line} (hl : l ≠ .clk) (v : Bool) {es : List Event} (h : WholePulses es) :
      WholePulses (.write l v :: es)
  | pulse {es : List Event} (h : WholePulses es) : WholePulses (pulse ++ es)

theorem WholePulses.append {es fs : List Event} (he : WholePulses es) (hf : WholePulses fs) :
    WholePulses (es ++ fs) := by
  induction he with
  | nil => exact hf
  | write hl v _ ih => exact .write hl v ih
  | pulse _ ih => exact .pulse ih

theorem wholePulses_drive {l : Line} (hl : l ≠ .clk) (v : Bool) : WholePulses (drive l v) := .write hl v .nil

theorem wholePulses_flatMap {α : Type} {f : α → List Event} (h : ∀ x, WholePulses (f x)) (xs : List α) :
    WholePulses (xs.flatMap f) := by
  induction xs with
  | nil => exact .nil
  | cons x xs ih => exact (h x).append ih

theorem wholePulses_pulses (n : Nat) : WholePulses (pulses n) := by
  induction n with
  | zero => exact .nil
  | succ n ih => exact pulses_succ n ▸ .pulse ih

theorem wholePulses_shiftBit (v : Bool) : WholePulses (shiftBit v) := .write (by simp) v (.pulse .nil)

theorem wholePulses_writeByte (x : Byte) : WholePulses (writeByte x) := wholePulses_flatMap wholePulses_shiftBit _

theorem wholePulses_pixelOut (P : Params) (p : Pixel) (gm : Bool) : WholePulses (pixelOut P p gm) :=
  (((wholePulses_writeByte _).append (wholePulses_writeByte _)).append (wholePulses_writeByte _)).append
    (wholePulses_writeByte _)

theorem wholePulses_sof : WholePulses sof := .write (by simp) false (wholePulses_pulses _)

theorem wholePulses_eof : WholePulses eof := .write (by simp) false (wholePulses_pulses _)

theorem wholePulses_frame (P : Params) (cfg : ChannelCfg) : WholePulses (frame P cfg) :=
  (wholePulses_sof.append (wholePulses_flatMap (fun p => wholePulses_pixelOut P p cfg.gamma) _)).append wholePulses_eof

theorem wholePulses_of_framerList {P : Params} {es : List Event} (h : FramerList P es) : WholePulses es := by
  induction h with
  | nil => exact .nil
  | pulse => exact .pulse .nil
  | shiftBit v => exact wholePulses_shiftBit v
  | writeByte x => exact wholePulses_writeByte x
  | pixelOut p gm => exact wholePulses_pixelOut P p gm
  | sof => exact wholePulses_sof
  | eof => exact wholePulses_eof
  | frame cfg => exact wholePulses_frame P cfg
  | append _ _ ihe ihf => exact ihe.append ihf

theorem wholePulses_select (c : ChanIdx) : WholePulses (select c) :=
  wholePulses_flatMap (fun _ => wholePulses_drive (by simp) _) _

theorem wholePulses_deselect (P : Params) (c : ChanIdx) : WholePulses (deselect P c) := by
  unfold deselect
  split
  · exact wholePulses_drive (by simp) _
  · exact .nil

theorem wholePulses_channelEvents (P : Params) (c : ChanIdx) (x : Option ChannelCfg) :
    WholePulses (channelEvents P c x) := by
  cases x with
  | none => exact .nil
  | some cfg => exact ((wholePulses_select c).append (wholePulses_frame P cfg)).append (wholePulses_deselect P c)

theorem wholePulses_showEvents (P : Params) (chan : Vector (Option ChannelCfg) 4) : WholePulses (showEvents P chan) :=
  wholePulses_flatMap (fun c => wholePulses_channelEvents P c _) _

/-! ### DAT while CLK is high (R152) -/

/-- Nothing stands between the two writes of a pulse, so no write of DAT does. -/
theorem WholePulses.datStable {es : List Event} (h : WholePulses es) : datStable false es = true := by
  induction h with
  | nil => rfl
  | @write l hl v es _ ih =>
    cases l with
    | clk => exact absurd rfl hl
    | dat => exact ih
    | sel k => exact ih
  | pulse _ ih => exact ih

/-- A pulse samples the same DAT level at both of its writes. -/
theorem WholePulses.bitsAtFall_eq_bits {es : List Event} (h : WholePulses es) (d : Bool) :
    bitsAtFall d es = bits d es := by
  induction h generalizing d with
  | nil => rfl
  | @write l hl v es _ ih =>
    cases l with
    | clk => exact absurd rfl hl
    | dat => exact ih v
    | sel k => exact ih d
  | pulse _ ih => exact congrArg (d :: ·) (ih d)

/-- Settles O38: every list the framer builds writes CLK in whole pulses only. -/
theorem datStableWhileClkHigh : Obligations.DatStableWhileClkHigh :=
  fun _ _ h => ⟨(wholePulses_of_framerList h).datStable, (wholePulses_of_framerList h).bitsAtFall_eq_bits⟩

/-! ### Every write of CLK is an edge (R155) -/

/-- Writing another line leaves a pin as it was. -/
theorem pin_apply_write_of_ne {l l' : Line} (h : l' ≠ l) (ls : LineState) (v : Bool) :
    (ls.apply (.write l v)).pin l' = ls.pin l' := by
  simp [LineState.pin, PerLine.get_set, h]

/-- A driven pin goes to the level that is written. -/
theorem pin_apply_write_self {l : Line} {ls : LineState} {u : Bool} (h : ls.pin l = .level u) (v : Bool) :
    (ls.apply (.write l v)).pin l = .level v := by
  rw [pin_eq_level_iff] at h ⊢
  exact ⟨h.1, PerLine.get_set_self _ _ _⟩

/-- From CLK at 0, whole pulses write CLK only to the level at which it does not stand: the rise comes from 0, the fall
follows it at once, and the other writes leave CLK alone. -/
theorem WholePulses.clk_write_is_edge {es : List Event} (h : WholePulses es) {ls : LineState}
    (hclk : ls.pin .clk = .level false) {pre post : List Event} {v : Bool} (heq : es = pre ++ .write .clk v :: post) :
    (ls.applyAll pre).pin .clk = .level (!v) := by
  induction h generalizing ls pre with
  | nil => simp at heq
  | @write l hl u es _ ih =>
    rcases List.cons_eq_append_iff.1 heq with ⟨-, hhead⟩ | ⟨pre, rfl, hrest⟩
    · cases hhead
      exact absurd rfl hl
    · exact ih ((pin_apply_write_of_ne hl.symm ls u).trans hclk) hrest
  | @pulse es _ ih =>
    have hup := pin_apply_write_self hclk true
    rcases List.cons_eq_append_iff.1 heq with ⟨rfl, hhead⟩ | ⟨pre, rfl, htail⟩
    · cases hhead
      exact hclk
    rcases List.cons_eq_append_iff.1 htail with ⟨rfl, hhead⟩ | ⟨pre, rfl, hrest⟩
    · cases hhead
      exact hup
    · exact ih (pin_apply_write_self hup false) hrest

/-- Settles O42: a SHOW writes CLK in whole pulses only. -/
theorem clkWritesAreEdges : Obligations.ClkWritesAreEdges :=
  fun P chan _ hclk _ _ _ heq => (wholePulses_showEvents P chan).clk_write_is_edge hclk heq

/-! ### Safe pulses (R155, R173) -/

theorem pulsesSafe_of_no_pulse {es : List Event} (h : .write .clk true ∉ es) (ls : LineState) : PulsesSafe ls es := by
  rintro pre post rfl
  exact absurd (by simp) h

theorem pulsesSafe_nil (ls : LineState) : PulsesSafe ls [] := pulsesSafe_of_no_pulse (by simp) ls

theorem pulsesSafe_of_cons {ls : LineState} {e : Event} {es : List Event} (h : PulsesSafe ls (e :: es)) :
    PulsesSafe (ls.apply e) es :=
  fun pre post heq => h (e :: pre) post (by rw [heq, List.cons_append])

theorem pulsesSafe_append {ls : LineState} {es fs : List Event} (he : PulsesSafe ls es)
    (hf : PulsesSafe (ls.applyAll es) fs) : PulsesSafe ls (es ++ fs) := by
  intro pre post heq
  rcases List.append_eq_append_iff.1 heq with ⟨mid, rfl, hmid⟩ | ⟨mid, rfl, hmid⟩
  · rw [applyAll_append]
    exact hf mid post hmid
  · rcases List.cons_eq_append_iff.1 hmid with ⟨rfl, hhead⟩ | ⟨mid, rfl, -⟩
    · simpa using hf [] post hhead
    · exact he pre mid rfl

/-- Whole pulses are safe while the pins select one channel and no select line is written. -/
theorem pulsesSafe_of_selected {c : ChanIdx} {es : List Event} {ls : LineState} (hp : WholePulses es)
    (hs : SharedLinesOnly es) (hclk : ls.pin .clk = .level false) (hsel : Selected ls c) : PulsesSafe ls es := by
  intro pre post heq
  obtain ⟨hmode, hlat⟩ := applyAll_of_sharedLinesOnly (es := pre) (fun e he => hs e (by simp [heq, he])) ls
  refine ⟨⟨c, fun k => ?_⟩, hp.clk_write_is_edge hclk heq⟩
  simpa [LineState.pin, hmode, hlat] using hsel k

/-- From outputs, `select` makes the pins select its channel (R171). -/
theorem selected_applyAll_select {ls : LineState} (hm : ∀ l, ls.mode.get l = .output) (c : ChanIdx) :
    Selected (ls.applyAll (select c)) c := by
  intro k
  refine (pin_eq_level_iff _ _ _).2 ⟨?_, applyAll_select_sel c k ls⟩
  simpa [select_eq] using hm (.sel k)

/-- `select` leaves CLK alone (R171). -/
theorem pin_clk_applyAll_select (c : ChanIdx) (ls : LineState) :
    (ls.applyAll (select c)).pin .clk = ls.pin .clk := by
  simp [select_eq, LineState.pin, PerLine.get_set]

/-- From settled lines, the pulses of a channel's part are its frame's, and come while it is selected (R173). -/
theorem pulsesSafe_channelEvents {P : Params} {ls : LineState} (h : LinesSettled P ls) (c : ChanIdx)
    (x : Option ChannelCfg) : PulsesSafe ls (channelEvents P c x) := by
  cases x with
  | none => exact pulsesSafe_nil ls
  | some cfg =>
    obtain ⟨hm, -, hlow, -⟩ := h
    have hclk : (ls.applyAll (select c)).pin .clk = .level false := by
      rw [pin_clk_applyAll_select]
      exact (pin_eq_level_iff _ _ _).2 ⟨hm _, hlow⟩
    have hframe : PulsesSafe (ls.applyAll (select c)) (frame P cfg) :=
      pulsesSafe_of_selected (wholePulses_frame P cfg) (sharedLinesOnly_frame P cfg) hclk (selected_applyAll_select hm c)
    exact pulsesSafe_append (pulsesSafe_append (pulsesSafe_of_no_pulse (no_pulse_select c) _) hframe)
      (pulsesSafe_of_no_pulse (no_pulse_deselect P c) _)

/-- Each channel's part of a SHOW leaves the lines settled for the next. -/
theorem pulsesSafe_showEvents {P : Params} {ls : LineState} (h : LinesSettled P ls)
    (chan : Vector (Option ChannelCfg) 4) : PulsesSafe ls (showEvents P chan) := by
  unfold showEvents
  induction allChannels generalizing ls with
  | nil => exact pulsesSafe_nil ls
  | cons c cs ih => exact pulsesSafe_append (pulsesSafe_channelEvents h c _) (ih (linesSettled_channelEvents h c _))

/-- The head of PENDING is driven, and the pulses after it are those that were pending. -/
theorem sequencerStep_keeps_pulsesSafe {s : State} (h : PulsesSafe s.lines s.pending) :
    PulsesSafe (sequencerStep s).lines (sequencerStep s).pending := by
  cases hp : s.pending with
  | nil => rwa [sequencerStep_idle hp]
  | cons e rest =>
    rw [hp] at h
    rw [sequencerStep_cons hp]
    exact pulsesSafe_of_cons h

/-- An accepted SHOW finds the lines settled (R274), and after every other command nothing is pending. -/
theorem exec_keeps_pulsesSafe {i : Instr} {s t : State} (hs : LinesFollowInit s) (hp : s.pending = [])
    (ht : exec i s = .next t) : PulsesSafe t.lines t.pending := by
  rcases exec_control_cases ht with ⟨-, -, -, hp', -⟩ | ⟨-, -, -, -, -, hp', -⟩ | ⟨-, hd, -, -, hl, hp', -⟩ |
      ⟨-, -, -, -, -, hp', -⟩ <;> rw [hp']
  · exact hp ▸ pulsesSafe_nil _
  · exact hp ▸ pulsesSafe_nil _
  · obtain ⟨-, -, hset⟩ := hs.2 hd
    rw [hp, applyAll_nil] at hset
    rw [hl]
    exact pulsesSafe_showEvents hset _
  · exact hp ▸ pulsesSafe_nil _

/-- Settles O57: the sequencer only shortens PENDING, and a SHOW is accepted on settled lines alone, which is why
`LinesFollowInit` is carried along. -/
theorem pulsesStaySafe : Obligations.PulsesStaySafe := by
  intro s t hs hsafe hst
  exact step_keeps (I := fun s => LinesFollowInit s ∧ (s.initDone = true → PulsesSafe s.lines s.pending))
    (hseq := fun s ⟨h, hsafe⟩ => ⟨sequencerStep_keeps_linesFollowInit h, fun hd =>
      sequencerStep_keeps_pulsesSafe (hsafe (sequencerStep_initDone s ▸ hd))⟩)
    (hin := fun _ _ h => h)
    (hreset := fun s _ => ⟨linesFollowInit_resetBlock s, fun hd => by simp at hd⟩)
    (hexec := fun _ _ _ ⟨h, _⟩ hp ht => ⟨exec_keeps_linesFollowInit h hp ht, fun _ => exec_keeps_pulsesSafe h hp ht⟩)
    (hresp := fun _ _ _ h => h)
    ⟨hs, hsafe⟩ hst

/-! ### The frame bit law (R151) -/

/-- The start-of-frame marker clocks 32 zeros, whatever DAT was (R147). -/
theorem bits_sof (d : Bool) : bits d sof = zeros sofPulses := (bits_pulses false sofPulses).1

/-- The end-of-frame marker clocks 36 zeros, whatever DAT was (R148). -/
theorem bits_eof (d : Bool) : bits d eof = zeros eofPulses := (bits_pulses false eofPulses).1

theorem bits_frame (d : Bool) (P : Params) (cfg : ChannelCfg) : bits d (frame P cfg) = frameBits P cfg := by
  simp only [frame, frameBits, bits_append, bits_sof, bits_eof,
    bits_flatMap fun d p => bits_pixelOut d P p cfg.gamma]

/-- A pixel is four bytes. -/
theorem length_pixelBits (P : Params) (gm : Bool) (p : Pixel) : (pixelBits P gm p).length = 32 := rfl

/-- A frame is 32 bits of start marker, 32 bits a pixel, and 36 bits of end marker. -/
theorem length_frameBits (P : Params) (cfg : ChannelCfg) : (frameBits P cfg).length = 68 + 32 * cfg.pix.length := by
  simp only [frameBits, zeros, List.length_append, List.length_replicate, List.length_flatMap, length_pixelBits,
    List.map_const', List.sum_replicate, sofPulses, eofPulses, smul_eq_mul]
  omega

/-- Settles O37: the markers and the pixels clock their own bits, whatever DAT was before. -/
theorem frameBitLaw : Obligations.FrameBitLaw :=
  fun P cfg d => ⟨bits_frame d P cfg, length_frameBits P cfg⟩

/-! ### Event and pulse counts (R153) -/

theorem counts_pulses (n : Nat) : (pulses n).length = 2 * n ∧ pulseCount (pulses n) = n := by
  induction n with
  | zero => exact ⟨rfl, rfl⟩
  | succ n ih =>
    obtain ⟨hlen, hcount⟩ := ih
    rw [pulses_succ, List.length_append, pulseCount_append, hlen, hcount]
    exact ⟨Nat.add_comm 2 _, Nat.add_comm 1 _⟩

theorem counts_shiftBit (v : Bool) : (shiftBit v).length = 3 ∧ pulseCount (shiftBit v) = 1 := ⟨rfl, rfl⟩

/-- A byte is eight bits of three events and one pulse each. -/
theorem counts_writeByte (x : Byte) : (writeByte x).length = 24 ∧ pulseCount (writeByte x) = 8 :=
  counts_flatMap counts_shiftBit (bitsMSB8 x)

theorem counts_pixelOut (P : Params) (p : Pixel) (gm : Bool) :
    (pixelOut P p gm).length = 96 ∧ pulseCount (pixelOut P p gm) = 32 := by
  simp only [pixelOut, List.length_append, pulseCount_append, counts_writeByte]
  decide

/-- A marker is one write of DAT before its pulses. -/
theorem counts_marker (n : Nat) :
    (drive .dat false ++ pulses n).length = 1 + 2 * n ∧ pulseCount (drive .dat false ++ pulses n) = n := by
  obtain ⟨hlen, hcount⟩ := counts_pulses n
  rw [List.length_append, pulseCount_append, hlen, hcount]
  exact ⟨rfl, Nat.zero_add n⟩

theorem counts_sof : sof.length = 65 ∧ pulseCount sof = 32 := counts_marker sofPulses

theorem counts_eof : eof.length = 73 ∧ pulseCount eof = 36 := counts_marker eofPulses

theorem counts_frame (P : Params) (cfg : ChannelCfg) :
    (frame P cfg).length = 138 + 96 * cfg.pix.length ∧ pulseCount (frame P cfg) = 68 + 32 * cfg.pix.length := by
  obtain ⟨hlen, hcount⟩ := counts_flatMap (fun p => counts_pixelOut P p cfg.gamma) cfg.pix
  simp only [frame, List.length_append, pulseCount_append, counts_sof, counts_eof, hlen, hcount]
  omega

/-- Settles O39: a frame's counts are the sums of its parts'. -/
theorem framerCounts : Obligations.FramerCounts :=
  ⟨⟨rfl, rfl⟩, counts_shiftBit, counts_writeByte, counts_pixelOut, counts_sof, counts_eof, counts_frame⟩

/-! ### The header byte (R144) -/

/-- HDR_PREFIX and BRIGHTNESS stand side by side. -/
theorem hdr_eq_append (P : Params) : hdr P = hdrPrefix ++ P.brightness := by
  rw [BitVec.append_def, BitVec.shiftLeftZeroExtend_eq]
  rfl

/-- Settles O35: the two fields are those of the concatenation, and the upper one alone is 0xE0. -/
theorem headerByte : Obligations.HeaderByte := by
  intro P
  have hlow : 0xE0 ≤ (hdr P).toNat := by
    rw [hdr_eq_append, BitVec.toNat_append]
    exact Nat.left_le_or
  refine ⟨hdr_eq P, ?_, ?_, hlow, Nat.le_of_lt_succ (hdr P).isLt⟩
  · rw [hdr_eq_append]
    exact BitVec.extractLsb'_append_eq_left
  · rw [hdr_eq_append]
    exact BitVec.extractLsb'_append_eq_right

end Sys2Proof.Machine

/-! ## The selector, and what each channel receives in a SHOW (42_channel_selector R171, R173, R175, R177) -/

namespace Sys2Proof.Machine

/-! ### select (R171) -/

/-- A select line is driven to 0 exactly when it is that of the channel chosen. -/
theorem selLevel_eq_decide (k c : ChanIdx) : (if k = c then selActive else selInactive) = decide (k ≠ c) := by
  by_cases h : k = c
  · simp [h, selActive]
  · simp [h, selInactive]

/-- Settles O40: the one-hot latches are the law of `select`, whose writes name select lines only. -/
theorem selectIsOneHot : Obligations.SelectIsOneHot := by
  intro c ls
  refine ⟨?_, List.count_eq_zero.2 (no_pulse_select c), fun k => ?_, ?_, ?_, ?_⟩
  · simp only [select_eq, selLevel_eq_decide]
  · rw [applyAll_select_sel, selLevel_eq_decide]
  · exact applyAll_lat_of_not_written (by simp [select_eq]) ls
  · exact applyAll_lat_of_not_written (by simp [select_eq]) ls
  · simp [select_eq]

/-! ### The one-hot law (R173) -/

/-- Writes of DAT and CLK leave the selection as it was. -/
theorem selected_applyAll {c : ChanIdx} {es : List Event} {ls : LineState} (hs : SharedLinesOnly es)
    (h : Selected ls c) : Selected (ls.applyAll es) c := by
  obtain ⟨hmode, hlat⟩ := applyAll_of_sharedLinesOnly hs ls
  intro k
  simpa [LineState.pin, hmode, hlat] using h k

/-- A clock pulse of a configured channel's events is one of its frame: what stands before it is `select` and a first
part of the frame. -/
theorem pulse_in_frame {P : Params} {c : ChanIdx} {cfg : ChannelCfg} {pre post : List Event}
    (h : select c ++ frame P cfg ++ deselect P c = pre ++ .write .clk true :: post) :
    ∃ mid, pre = select c ++ mid ∧ mid <+: frame P cfg := by
  rw [List.append_assoc] at h
  rcases List.append_eq_append_iff.1 h with ⟨mid, hpre, hrest⟩ | ⟨late, hselect, hlate⟩
  · refine ⟨mid, hpre, ?_⟩
    rcases List.append_eq_append_iff.1 hrest with ⟨late, -, hdeselect⟩ | ⟨tail, hframe, -⟩
    · exact absurd (by simp [hdeselect]) (no_pulse_deselect P c)
    · exact ⟨tail, hframe.symm⟩
  · rcases List.cons_eq_append_iff.1 hlate with ⟨rfl, -⟩ | ⟨late, rfl, -⟩
    · exact ⟨[], by simpa using hselect.symm, ⟨frame P cfg, rfl⟩⟩
    · exact absurd (by simp [hselect]) (no_pulse_select c)

/-- Settles O41: `select` makes the pins one-hot, and the frame, which holds every pulse, writes no select line. -/
theorem oneChannelSelectedPerPulse : Obligations.OneChannelSelectedPerPulse := by
  intro P c cfg ls hm pre post heq
  obtain ⟨mid, rfl, hmid⟩ := pulse_in_frame heq
  rw [applyAll_append]
  exact selected_applyAll (fun e he => sharedLinesOnly_frame P cfg e (hmid.subset he)) (selected_applyAll_select hm c)

/-! ### Who is selected in a SHOW, and the pin of an ABSENT channel (R177) -/

/-- Only a configured channel's own part of a SHOW drives its select line to 0. -/
theorem write_sel_low_mem_channelEvents_iff (P : Params) (c k : ChanIdx) (x : Option ChannelCfg) :
    .write (.sel k) false ∈ channelEvents P c x ↔ k = c ∧ x.isSome = true := by
  cases x with
  | none => simp [channelEvents]
  | some cfg =>
    have hselect : .write (.sel k) false ∈ select c ↔ k = c := by
      simp only [select_eq, selLevel_eq_decide]
      fin_cases k <;> simp
    have hframe : .write (.sel k) false ∉ frame P cfg := fun h => by
      simpa using sharedLinesOnly_frame P cfg _ h
    have hdeselect : .write (.sel k) false ∉ deselect P c := by
      unfold deselect
      split <;> simp [drive, selInactive]
    simp [channelEvents, hselect, hframe, hdeselect]

/-- A SHOW drives a select line to 0 exactly when its channel is configured (R192). -/
theorem write_sel_low_mem_showEvents_iff (P : Params) (chan : Vector (Option ChannelCfg) 4) (c : ChanIdx) :
    .write (.sel c) false ∈ showEvents P chan ↔ (chanAt chan c).isSome = true := by
  have hall : c ∈ allChannels := by fin_cases c <;> simp [allChannels]
  simp [showEvents, write_sel_low_mem_channelEvents_iff, hall]

/-- A pin stays at its level while the other level is not written to its line. -/
theorem waveform_constant {l : Line} {v : Bool} {es : List Event} (hw : AllWrites es) (hno : .write l (!v) ∉ es)
    {ls : LineState} (hpin : ls.pin l = .level v) : ∀ x ∈ waveform l ls es, x = .level v := by
  induction es generalizing ls with
  | nil => simp [waveform]
  | cons e es ih =>
    obtain ⟨l', u, rfl⟩ := hw e List.mem_cons_self
    obtain ⟨hhead, htail⟩ := List.ne_and_not_mem_of_not_mem_cons hno
    have hstep : (ls.apply (.write l' u)).pin l = .level v := by
      by_cases hl : l = l'
      · subst hl
        have hu : v = u := by simpa using hhead
        exact hu ▸ pin_apply_write_self hpin u
      · exact (pin_apply_write_of_ne hl ls u).trans hpin
    intro x hx
    rcases List.mem_cons.1 hx with rfl | hx
    · exact hstep
    · exact ih (fun e he => hw e (List.mem_cons_of_mem _ he)) htail hstep x hx

/-- Settles O34: a SHOW is a list of writes, and none of them drives the select line of an ABSENT channel to 0. -/
theorem absentSelectPinStaysHigh : Obligations.AbsentSelectPinStaysHigh := by
  intro P chan c ls habsent hpin
  refine waveform_constant (writes_showEvents P chan) ?_ hpin
  rw [Bool.not_true, write_sel_low_mem_showEvents_iff, habsent]
  simp

/-! ### Channel delivery (R175) -/

/-- From outputs, a channel's part of a SHOW delivers its frame's bits to that channel and nothing to another. -/
theorem channelStream_channelEvents (P : Params) (c k : ChanIdx) (x : Option ChannelCfg) {ls : LineState}
    (hm : ∀ l, ls.mode.get l = .output) :
    channelStream c ls (channelEvents P k x) = if c = k then x.elim [] (frameBits P) else [] := by
  cases x with
  | none => simp [channelEvents]
  | some cfg =>
    have hpin : (ls.applyAll (select k)).pin (.sel c) = .level (if c = k then selActive else selInactive) :=
      selected_applyAll_select hm k c
    obtain ⟨hmode, hlat⟩ := (pin_eq_level_iff _ _ _).1 hpin
    simp only [channelEvents, channelStream_append, channelStream_of_no_pulse (no_pulse_select k),
      channelStream_of_no_pulse (no_pulse_deselect P k), List.nil_append, List.append_nil, Option.elim_some]
    by_cases hc : c = k
    · rw [if_pos hc] at hlat ⊢
      rw [channelStream_of_selected (sharedLinesOnly_frame P cfg) _ hmode hlat, bits_frame]
    · rw [if_neg hc] at hlat ⊢
      exact channelStream_of_unselected (sharedLinesOnly_frame P cfg) _ hlat

/-- The parts of several channels deliver what each delivers alone: every part leaves the lines outputs. -/
theorem channelStream_flatMap_channelEvents (P : Params) (chan : Vector (Option ChannelCfg) 4) (c : ChanIdx)
    (cs : List ChanIdx) {ls : LineState} (hm : ∀ l, ls.mode.get l = .output) :
    channelStream c ls (cs.flatMap fun k => channelEvents P k (chanAt chan k)) =
      cs.flatMap fun k => if c = k then (chanAt chan k).elim [] (frameBits P) else [] := by
  induction cs generalizing ls with
  | nil => rfl
  | cons k cs ih =>
    have hm' : ∀ l, (ls.applyAll (channelEvents P k (chanAt chan k))).mode.get l = .output := by
      rwa [applyAll_mode_of_writes (writes_channelEvents P k _)]
    rw [List.flatMap_cons, channelStream_append, channelStream_channelEvents P c k _ hm, ih hm', List.flatMap_cons]

/-- Settles O43: of the four parts of a SHOW, a channel's own alone delivers to it. -/
theorem channelsReceiveTheirFrames : Obligations.ChannelsReceiveTheirFrames := by
  intro P chan c ls hm
  rw [showEvents, channelStream_flatMap_channelEvents P chan c _ hm]
  fin_cases c <;> simp [allChannels]

/-! ### A SHOW on the machine (R190, R194) -/

/-- While BUSY, with a host that neither resets nor idles, the step is the sequencer's and the inputs are held. -/
theorem step_of_noResetNext {s : State} (hb : s.pending ≠ []) (hn : noResetNext s.inputs) :
    step s = .next (sequencerStep s) := by
  rcases hn with h | ⟨w, rest, h⟩
  · exact step_of_no_inputs h
  · exact step_of_held h hb

/-- k steps of the sequencer drive the first k events of PENDING; the last of them all gives the response (R34). -/
theorem run_pending {k : Nat} {s : State} (hk : k ≤ s.pending.length) (hn : noResetNext s.inputs) :
    core.run k s = .next { s with
      pending := s.pending.drop k
      lines := s.lines.applyAll (s.pending.take k)
      tr := s.tr ++ s.pending.take k
      responses := s.responses ++ if s.pending ≠ [] ∧ k = s.pending.length then [⟨.ok, 0⟩] else [] } := by
  induction k generalizing s with
  | zero =>
    have hnone : ¬(s.pending ≠ [] ∧ 0 = s.pending.length) :=
      fun ⟨hne, hlen⟩ => hne (List.eq_nil_of_length_eq_zero hlen.symm)
    simp [hnone]
  | succ k ih =>
    cases hp : s.pending with
    | nil => simp [hp] at hk
    | cons e rest =>
      have hk' : k ≤ rest.length := by simpa [hp] using hk
      rw [run_succ (step_of_noResetNext (by simp [hp]) hn), sequencerStep_cons hp, ih]
      · by_cases hlast : rest = []
        · have hk0 : k = 0 := by simpa [hlast] using hk'
          simp [hlast, hk0]
        · simp [hlast]
      · exact hk'
      · exact hn

/-- An accepted SHOW makes its list PENDING, and answers at once when the list is empty (R190). -/
theorem exec_showCmd_of_initDone {s : State} (hf : s.fault = false) (hd : s.initDone = true) :
    exec .showCmd s = .next { s with
      pending := showEvents Config.params s.chan
      responses := s.responses ++ if showEvents Config.params s.chan = [] then [⟨.ok, 0⟩] else [] } := by
  simp only [exec, execShowCmd, unlessFaulted_of_no_fault hf, hd, if_true, startShow_eq]

/-- The step that takes a SHOW and k more drive the first k events of its list, and the response comes with the last
(R190, R194). -/
theorem run_of_showCmd {s : State} {rest : List HostInput} (hin : s.inputs = .command (encode .showCmd) :: rest)
    (hn : noResetNext rest) (hp : s.pending = []) (hf : s.fault = false) (hd : s.initDone = true) {k : Nat}
    (hk : k ≤ (showEvents Config.params s.chan).length) :
    core.run (k + 1) s = .next { s with
      inputs := rest
      pending := (showEvents Config.params s.chan).drop k
      lines := s.lines.applyAll ((showEvents Config.params s.chan).take k)
      tr := s.tr ++ (showEvents Config.params s.chan).take k
      responses := s.responses ++ if k = (showEvents Config.params s.chan).length then [⟨.ok, 0⟩] else [] } := by
  have htaken : step s = exec .showCmd { s with inputs := rest } := step_of_command hin hp (decodeOfEncode .showCmd)
  rw [run_succ (htaken.trans (exec_showCmd_of_initDone hf hd)), run_pending hk hn]
  by_cases he : showEvents Config.params s.chan = []
  · have hk0 : k = 0 := by simpa [he] using hk
    simp [he, hk0]
  · simp [he]

/-- After INIT the lines the trace gives are outputs. -/
theorem replay_output {s : State} (hd : s.initDone = true) (hl : LinesFollowInit s) (ht : PinsFollowTrace s)
    (l : Line) : (replay s.tr).mode.get l = .output := by
  obtain ⟨hmode, -, -⟩ := ht
  obtain ⟨hout, -, -⟩ := hl.2 hd
  rw [hmode, hout]

/-- Settles O44: the run appends the SHOW's whole list to the trace, and that list, from the lines the trace gives,
delivers the frames. -/
theorem completedShowDeliversFrames : Obligations.CompletedShowDeliversFrames := by
  intro s rest hin hn hp hf hd hl ht
  refine ⟨_, run_of_showCmd hin hn hp hf hd le_rfl, List.drop_length, by rw [if_pos rfl], fun c => ?_⟩
  rw [received, List.take_length, channelStream_append]
  exact congrArg (received c s ++ ·) (channelsReceiveTheirFrames Config.params s.chan c _ (replay_output hd hl ht))

end Sys2Proof.Machine

/-! ## SHOW: the answers to the command, its run, and the laws of its list (43_show R190 to R198) -/

namespace Sys2Proof.Machine

/-! ### Which channels contribute to the list (R192) -/

/-- Exactly an ABSENT channel contributes nothing: any other is selected at least. -/
theorem channelEvents_eq_nil_iff (P : Params) (c : ChanIdx) (x : Option ChannelCfg) :
    channelEvents P c x = [] ↔ x = none := by
  cases x with
  | none => simp [channelEvents]
  | some cfg => simp [channelEvents, select_eq]

theorem mem_allChannels (c : ChanIdx) : c ∈ allChannels := by fin_cases c <;> decide

/-- A SHOW drives nothing exactly when no channel is configured. -/
theorem showEvents_eq_nil_iff (P : Params) (chan : Vector (Option ChannelCfg) 4) :
    showEvents P chan = [] ↔ ∀ c, chanAt chan c = none := by
  simp [showEvents, List.flatMap_eq_nil_iff, channelEvents_eq_nil_iff, mem_allChannels]

/-- The channels in ascending order: those below a channel, the channel itself, those above it. -/
theorem allChannels_split (c : ChanIdx) :
    ∃ below above, allChannels = below ++ c :: above ∧ (∀ k ∈ below, k < c) ∧ ∀ k ∈ above, c < k := by
  obtain ⟨below, above, heq⟩ := List.append_of_mem (mem_allChannels c)
  have hsorted : (below ++ c :: above).Pairwise (· < ·) := heq ▸ by decide
  obtain ⟨-, htail, hbelow⟩ := List.pairwise_append.1 hsorted
  exact ⟨below, above, heq, fun k hk => hbelow k hk c List.mem_cons_self, (List.pairwise_cons.1 htail).1⟩

/-- Channels that are ABSENT contribute nothing. -/
theorem flatMap_channelEvents_of_absent {P : Params} {chan : Vector (Option ChannelCfg) 4} {cs : List ChanIdx}
    (h : ∀ k ∈ cs, chanAt chan k = none) : (cs.flatMap fun k => channelEvents P k (chanAt chan k)) = [] :=
  List.flatMap_eq_nil_iff.2 fun k hk => (channelEvents_eq_nil_iff P k _).2 (h k hk)

/-- With no channel configured above it, a channel's part ends the list. -/
theorem showEvents_of_last (P : Params) {chan : Vector (Option ChannelCfg) 4} {c : ChanIdx}
    (habove : ∀ k, c < k → chanAt chan k = none) :
    ∃ earlier, showEvents P chan = earlier ++ channelEvents P c (chanAt chan c) := by
  obtain ⟨below, above, heq, -, hgt⟩ := allChannels_split c
  refine ⟨below.flatMap fun k => channelEvents P k (chanAt chan k), ?_⟩
  rw [showEvents, heq, List.flatMap_append, List.flatMap_cons,
    flatMap_channelEvents_of_absent fun k hk => habove k (hgt k hk), List.append_nil]

/-- With no other channel configured, a channel's part is the list. -/
theorem showEvents_of_alone (P : Params) {chan : Vector (Option ChannelCfg) 4} {c : ChanIdx}
    (hother : ∀ k, k ≠ c → chanAt chan k = none) : showEvents P chan = channelEvents P c (chanAt chan c) := by
  obtain ⟨below, above, heq, hlt, hgt⟩ := allChannels_split c
  rw [showEvents, heq, List.flatMap_append, List.flatMap_cons,
    flatMap_channelEvents_of_absent fun k hk => hother k (hlt k hk).ne,
    flatMap_channelEvents_of_absent fun k hk => hother k (hgt k hk).ne', List.nil_append, List.append_nil]

/-! ### The answers to SHOW (R190, R191) -/

/-- Settles O23: the flag is set and the error raised, and no event is performed. -/
theorem showBeforeInitFaults : Obligations.ShowBeforeInitFaults := by
  intro s hf hd
  have hraise : exec .showCmd s = .next (raise .notInitialized (setFault s)) := by
    simp [exec, execShowCmd, unlessFaulted_of_no_fault hf, hd]
  exact hraise

/-- Settles O24: the list is empty, and the answer given at once, exactly when no channel is configured. -/
theorem showAccepted : Obligations.ShowAccepted := by
  intro s hf hd
  rw [exec_showCmd_of_initDone hf hd]
  simp only [showEvents_eq_nil_iff]

/-! ### The run of a SHOW (R190, R194, R195) -/

/-- Settles O27: it is the law of a SHOW's run. -/
theorem showRunsToCompletion : Obligations.ShowRunsToCompletion :=
  fun _ _ hin hn hp hf hd _ hk => run_of_showCmd hin hn hp hf hd hk

/-- Once a SHOW has run to its end its whole list is driven and OK answered, the port is free, and the storage and the
flags are as they were. -/
theorem run_of_showCmd_to_end {s : State} {rest : List HostInput}
    (hin : s.inputs = .command (encode .showCmd) :: rest) (hn : noResetNext rest) (hp : s.pending = [])
    (hf : s.fault = false) (hd : s.initDone = true) :
    ∃ t, core.run ((showEvents Config.params s.chan).length + 1) s = .next t ∧ t.inputs = rest ∧ t.pending = [] ∧
      t.fault = false ∧ t.initDone = true ∧ t.chan = s.chan ∧
      t.tr = s.tr ++ showEvents Config.params s.chan ∧ t.responses = s.responses ++ [⟨.ok, 0⟩] :=
  ⟨_, run_of_showCmd hin hn hp hf hd le_rfl, rfl, List.drop_length, hf, hd, rfl,
    by rw [List.take_length], by rw [if_pos rfl]⟩

/-- Settles O28: the end of the first SHOW is the start of the second, on the same storage. -/
theorem secondShowRepeatsList : Obligations.SecondShowRepeatsList := by
  intro s hin hp hf hd
  obtain ⟨t, hrun, hin', hp', hf', hd', hchan, htr, hresp⟩ :=
    run_of_showCmd_to_end hin (.inr ⟨_, _, rfl⟩) hp hf hd
  obtain ⟨u, hrun', -, hpend, -, -, hchan', htr', hresp'⟩ := run_of_showCmd_to_end hin' (.inl rfl) hp' hf' hd'
  rw [hchan] at hrun' hchan' htr'
  refine ⟨u, ?_, ?_, hchan', hpend, ?_⟩
  · rw [Nat.two_mul, run_add hrun, hrun']
  · rw [htr', htr]
  · rw [hresp', hresp, List.append_assoc]
    rfl

/-! ### The counts of one SHOW (R196) -/

theorem counts_select (c : ChanIdx) : (select c).length = 4 ∧ pulseCount (select c) = 0 :=
  ⟨rfl, List.count_eq_zero.2 (no_pulse_select c)⟩

theorem counts_deselect (P : Params) (c : ChanIdx) :
    (deselect P c).length = (if P.deselectAfterFrame then 1 else 0) ∧ pulseCount (deselect P c) = 0 := by
  refine ⟨?_, List.count_eq_zero.2 (no_pulse_deselect P c)⟩
  unfold deselect
  split <;> rfl

/-- A configured channel's events and pulses are its frame's, with four writes before and at most one after. -/
theorem counts_channelEvents (P : Params) (c : ChanIdx) (x : Option ChannelCfg) :
    (channelEvents P c x).length =
        (x.elim 0 fun cfg => 142 + 96 * cfg.pix.length + if P.deselectAfterFrame then 1 else 0) ∧
      pulseCount (channelEvents P c x) = x.elim 0 fun cfg => 68 + 32 * cfg.pix.length := by
  cases x with
  | none => exact ⟨rfl, rfl⟩
  | some cfg =>
    simp only [channelEvents, List.length_append, pulseCount_append, counts_select, counts_frame, counts_deselect,
      Option.elim_some]
    omega

/-- A select line is driven to 0 once in its own channel's part, by `select`, and in no other. -/
theorem count_sel_low_channelEvents (P : Params) (c k : ChanIdx) (x : Option ChannelCfg) :
    (channelEvents P k x).count (.write (.sel c) false) = if c = k ∧ x.isSome = true then 1 else 0 := by
  by_cases h : c = k ∧ x.isSome = true
  · obtain ⟨rfl, hx⟩ := h
    obtain ⟨cfg, rfl⟩ := Option.isSome_iff_exists.1 hx
    have hselect : (select c).count (.write (.sel c) false) = 1 := by fin_cases c <;> decide
    have hframe : (frame P cfg).count (.write (.sel c) false) = 0 :=
      List.count_eq_zero.2 fun hmem => by simpa using sharedLinesOnly_frame P cfg _ hmem
    have hdeselect : (deselect P c).count (.write (.sel c) false) = 0 := by
      unfold deselect
      split <;> simp [drive, selInactive]
    simp [channelEvents, hselect, hframe, hdeselect]
  · rw [if_neg h, List.count_eq_zero]
    exact mt (write_sel_low_mem_channelEvents_iff P k c x).1 h

/-- Settles O30: the counts of the list are the sums of the channels' own. -/
theorem showCounts : Obligations.ShowCounts := by
  intro P chan
  refine ⟨?_, ?_, fun c => ?_⟩
  · simp only [showEvents, List.length_flatMap, counts_channelEvents]
  · simp only [showEvents, pulseCount, List.count_flatMap]
    exact congrArg List.sum (List.map_congr_left fun c _ => (counts_channelEvents P c _).2)
  · simp only [showEvents, List.count_flatMap, Function.comp_def, count_sel_low_channelEvents]
    fin_cases c <;> simp [allChannels]

/-! ### The latches after a SHOW (R197) -/

/-- A configured channel's part leaves DAT and CLK at 0, and every select at 1 but the channel's own when it is not
released, whatever the lines were. -/
theorem applyAll_channelEvents_lat (P : Params) (c : ChanIdx) (cfg : ChannelCfg) (ls : LineState) :
    (ls.applyAll (channelEvents P c (some cfg))).lat.get .dat = false ∧
      (ls.applyAll (channelEvents P c (some cfg))).lat.get .clk = false ∧
      ∀ k : ChanIdx, (ls.applyAll (channelEvents P c (some cfg))).lat.get (.sel k) =
        if k = c ∧ P.deselectAfterFrame = false then false else true := by
  obtain ⟨hdat, hclk⟩ := applyAll_frame_low P cfg (ls.applyAll (select c))
  have hsel := (applyAll_of_sharedLinesOnly (sharedLinesOnly_frame P cfg) (ls.applyAll (select c))).2
  simp only [channelEvents, applyAll_append, applyAll_deselect_lat, hdat, hclk, hsel, applyAll_select_sel]
  refine ⟨by simp, by simp, fun k => ?_⟩
  by_cases hk : k = c <;> cases P.deselectAfterFrame <;> simp [hk, selActive, selInactive]

/-- Settles O31: the last configured channel's part ends the list, and it writes every latch. -/
theorem linesAfterShow : Obligations.LinesAfterShow := by
  refine fun P chan ls => ⟨fun hnone => ?_, fun c hc habove => ?_⟩
  · rw [(showEvents_eq_nil_iff P chan).2 hnone, applyAll_nil]
  · obtain ⟨cfg, hcfg⟩ := Option.isSome_iff_exists.1 hc
    obtain ⟨earlier, heq⟩ := showEvents_of_last P habove
    rw [heq, hcfg, applyAll_append]
    exact applyAll_channelEvents_lat P c cfg _

/-! ### An empty channel (R193) -/

/-- A list without a clock pulse clocks no bit. -/
theorem bits_of_no_pulse {es : List Event} (h : .write .clk true ∉ es) (d : Bool) : bits d es = [] := by
  fun_induction bits d es with
  | case1 => rfl
  | case2 d v es ih => exact ih (List.not_mem_of_not_mem_cons h)
  | case3 d es ih => exact absurd List.mem_cons_self h
  | case4 d e es hdat hclk ih => exact ih (List.not_mem_of_not_mem_cons h)

/-- A configured channel's part clocks its frame's bits, whatever DAT was. -/
theorem bits_channelEvents (d : Bool) (P : Params) (c : ChanIdx) (cfg : ChannelCfg) :
    bits d (channelEvents P c (some cfg)) = frameBits P cfg := by
  simp only [channelEvents, bits_append, bits_of_no_pulse (no_pulse_select c), bits_frame,
    bits_of_no_pulse (no_pulse_deselect P c), List.nil_append, List.append_nil]

/-- Settles O32: the list is the one channel's part, with the counts and the bits of a frame without pixels. -/
theorem emptyChannelIsFramed : Obligations.EmptyChannelIsFramed := by
  intro P c gm d es
  have hes : es = channelEvents P c (some ⟨gm, []⟩) := by
    refine (showEvents_of_alone (c := c) P fun k hk => ?_).trans ?_
    · rw [chanAt_set, if_neg hk, chanAt_noChannels]
    · rw [chanAt_set, if_pos rfl]
  obtain ⟨hlen, hpulses⟩ := counts_channelEvents P c (some ⟨gm, []⟩)
  rw [hes]
  refine ⟨?_, fun hkeep => ?_, hpulses, bits_channelEvents d P c _⟩
  · simp [channelEvents, frame]
  · simp [hlen, hkeep]

/-! ### An ABSENT channel (R198) -/

/-- While another channel's part is driven a channel receives nothing, from any lines: `select` drives its select line to
1 before the first pulse. -/
theorem channelStream_channelEvents_of_ne (P : Params) {c k : ChanIdx} (hne : c ≠ k) (x : Option ChannelCfg)
    (ls : LineState) : channelStream c ls (channelEvents P k x) = [] := by
  cases x with
  | none => rfl
  | some cfg =>
    have hsel : (ls.applyAll (select k)).lat.get (.sel c) = selInactive := by rw [applyAll_select_sel, if_neg hne]
    simp only [channelEvents, channelStream_append, channelStream_of_no_pulse (no_pulse_select k),
      channelStream_of_unselected (sharedLinesOnly_frame P cfg) _ hsel,
      channelStream_of_no_pulse (no_pulse_deselect P k), List.append_nil]

/-- Settles O33: its own part is empty, and no other part selects it or delivers to it. -/
theorem absentChannelIsSkipped : Obligations.AbsentChannelIsSkipped := by
  intro P chan c ls habsent
  have hpart : ∀ k ls, channelStream c ls (channelEvents P k (chanAt chan k)) = [] := by
    intro k ls
    by_cases hk : c = k
    · rw [← hk, habsent]
      rfl
    · exact channelStream_channelEvents_of_ne P hk _ ls
  constructor
  · simp [write_sel_low_mem_showEvents_iff, habsent]
  · simp only [showEvents_eq, channelStream_append, hpart, List.append_nil]

end Sys2Proof.Machine

/-! ## The control commands, and a host that boots well (44_control R220 to R223) -/

namespace Sys2Proof.Machine

/-! ### What NOP and INIT do while FAULT = 0 (R220, R221) -/

theorem exec_nop_of_no_fault {s : State} (hf : s.fault = false) : exec .nop s = .next (respond .ok 0 s) := by
  simp [exec, execNop, unlessFaulted_of_no_fault hf]

theorem exec_init_of_no_fault {s : State} (hf : s.fault = false) :
    exec .init s = .next { s with
      initDone := true
      lines := s.lines.applyAll initEvents
      tr := s.tr ++ initEvents
      responses := s.responses ++ [⟨.ok, 0⟩] } := by
  simp only [exec, execInit, unlessFaulted_of_no_fault hf, performAll_eq]
  rfl

/-- NOP alone has the opcode 0x00 (R77). -/
theorem opField_encode_eq_zero_iff (i : Instr) : opField (encode i) = 0x00#8 ↔ i = .nop := by
  cases i <;> simp [encode]

/-- Settles O18: the only word with opcode 0x00 that decodes is that of NOP, which is 0. -/
theorem nopChangesNothing : Obligations.NopChangesNothing := by
  refine ⟨fun s => ⟨fun hf => faultBlocksCommands .nop s hf (by simp), exec_nop_of_no_fault⟩, rfl, fun w hop hw => ?_⟩
  cases hd : decode w with
  | illegal why => exact ⟨why, rfl⟩
  | command i =>
    obtain rfl := decode_eq_command_iff.1 hd
    obtain rfl := (opField_encode_eq_zero_iff i).1 hop
    exact absurd rfl hw

/-- Settles O19: FAULT first; otherwise the 13 events go to the lines, which end the same whatever they were, and to
the trace. -/
theorem initDrivesLines : Obligations.InitDrivesLines := by
  refine ⟨fun s => ⟨fun hf => faultBlocksCommands .init s hf (by simp), fun hf => ?_⟩, rfl⟩
  rw [exec_init_of_no_fault hf, applyAll_initEvents]
  rfl

/-! ### The fields of STATVIEW (R31), and RDSTAT (R222) -/

section
variable (brightness : BitVec 5) (fault initDone : Bool)

@[simp] theorem extractLsb'_unused_statView : (statView brightness fault initDone).extractLsb' 13 19 = 0#19 := by
  ext i hi
  simp only [statView]
  interval_cases i <;> simp

@[simp] theorem extractLsb'_bright_statView : (statView brightness fault initDone).extractLsb' 8 5 = brightness := by
  ext i hi
  simp only [statView]
  interval_cases i <;> simp

@[simp] theorem extractLsb'_reserved_statView : (statView brightness fault initDone).extractLsb' 2 6 = 0#6 := by
  ext i hi
  simp only [statView]
  interval_cases i <;> simp

@[simp] theorem getLsbD_fault_statView : (statView brightness fault initDone).getLsbD 1 = fault := by
  simp [statView]

@[simp] theorem getLsbD_initDone_statView : (statView brightness fault initDone).getLsbD 0 = initDone := by
  simp [statView]

end

/-- Settles O20: RDSTAT has no FAULT check and answers STATVIEW; while BUSY the step is the sequencer's, which takes no
input. -/
theorem rdstatReportsStatus : Obligations.RdstatReportsStatus := by
  refine ⟨fun s => ⟨statView bright s.fault s.initDone, rfl, ?_⟩,
    fun s rest hin hb => ⟨_, step_of_held hin hb, sequencerStep_inputs s⟩, rfl⟩
  exact ⟨extractLsb'_unused_statView .., extractLsb'_bright_statView .., extractLsb'_reserved_statView ..,
    getLsbD_fault_statView .., getLsbD_initDone_statView ..⟩

/-! ### Well-booted inputs (R223) -/

/-- An Illegal word among the inputs asks for nothing. -/
theorem wellBooted_illegal {w : Word} {why : Illegal} (hd : decode w = .illegal why) (inited : Bool)
    (rest : List HostInput) : wellBooted inited (.command w :: rest) = wellBooted inited rest := by
  simp [wellBooted, hd]

/-- A command among the inputs: a SHOW asks that INIT_DONE is 1, and after an INIT it is. -/
theorem wellBooted_command_iff {w : Word} {i : Instr} (hd : decode w = .command i) (inited : Bool)
    (rest : List HostInput) : wellBooted inited (.command w :: rest) = true ↔
      (i = .showCmd → inited = true) ∧ wellBooted (inited || decide (i = .init)) rest = true := by
  cases i <;> simp [wellBooted, hd]

/-- No command touches what the host offers next. -/
theorem exec_inputs {i : Instr} {s t : State} (ht : exec i s = .next t) : t.inputs = s.inputs := by
  rcases exec_cases i s with ⟨-, -, h⟩ | ⟨e, -, -, -, -, h⟩ | ⟨d, -, h⟩ | ⟨-, -, h⟩ |
      ⟨ch, n, gm, c, -, -, -, -, h⟩ | ⟨ch, ix, r, g, b, c, cfg, -, -, -, -, -, h⟩ |
      ⟨-, -, h⟩ | ⟨-, -, -, h⟩ | ⟨-, -, -, h⟩ <;>
    cases h.symm.trans ht
  · rfl
  · rfl
  · rfl
  · rfl
  · rfl
  · rfl
  · simp [performAll_eq]
  · simp [startShow_eq]
  · rfl

/-- While FAULT = 0, INIT sets INIT_DONE and no other command changes it; FAULT stays 0 if a SHOW finds INIT_DONE = 1. -/
theorem exec_flags_of_no_fault {i : Instr} {s t : State} (hf : s.fault = false)
    (hshow : i = .showCmd → s.initDone = true) (ht : exec i s = .next t) :
    t.fault = false ∧ t.initDone = (s.initDone || decide (i = .init)) := by
  by_cases hi : i = .init
  · subst hi
    cases (exec_init_of_no_fault hf).symm.trans ht
    exact ⟨hf, by simp⟩
  · rcases exec_control_cases ht with ⟨hd, hf', -⟩ | ⟨hinit, -⟩ | ⟨-, -, hd, hf', -⟩ | ⟨hcmd, hd, -⟩
    · exact ⟨hf'.trans hf, by simp [hd, hi]⟩
    · exact absurd hinit hi
    · exact ⟨hf'.trans hf, by simp [hd, hi]⟩
    · simp [hshow hcmd] at hd

/-- Settles O58: a taken command uses up its own part of the condition; the other steps leave INIT_DONE and FAULT, and a
reset clears both. -/
theorem wellBootedNeverFaults : Obligations.WellBootedNeverFaults := by
  intro s t hf hw hst
  rcases step_cases s with ⟨h, -⟩ | ⟨rest, hin, h⟩ | ⟨o, rest, hin, h⟩ | ⟨w, rest, why, hin, -, hd, h⟩ |
      ⟨w, rest, i, hin, -, hd, h⟩
  · cases h.symm.trans hst
    simpa [hf] using hw
  · cases h.symm.trans hst
    simpa [hf, hin, wellBooted] using hw
  · cases h.symm.trans hst
    simpa [hin, wellBooted] using hw
  · cases h.symm.trans hst
    rw [hin, wellBooted_illegal hd] at hw
    exact ⟨hf, hw⟩
  · rw [hin, wellBooted_command_iff hd] at hw
    obtain ⟨hshow, hrest⟩ := hw
    have ht := h.symm.trans hst
    obtain ⟨hf', hd'⟩ := exec_flags_of_no_fault (s := { s with inputs := rest }) hf hshow ht
    rw [hd', exec_inputs ht]
    exact ⟨hf', hrest⟩

end Sys2Proof.Machine

/-! ## Resets, and that the machine never stops (60_exceptions R241, R245, R252; 70_reset_and_hazards R271) -/

namespace Sys2Proof.Machine

/-- A line in input mode is not driven, whatever its latch (R33). -/
theorem pin_of_input {ls : LineState} {l : Line} (h : ls.mode.get l = .input) : ls.pin l = .z := by
  simp [LineState.pin, h]

/-- A reset makes every line an input, whatever LAT is then (R270). -/
theorem resetBlock_mode_get (s : State) (l : Line) : (resetBlock s).lines.mode.get l = .input := by simp

/-- Settles O46: a reset comes first whatever else the step could do, and gives every element its reset value. -/
theorem resetStepClears : Obligations.ResetStepClears := by
  intro s o rest hin
  have hlines (l : Line) := resetBlock_mode_get { s with inputs := rest } l
  exact ⟨_, step_of_reset hin, chanAt_noChannels, rfl, rfl, fun l => ⟨hlines l, pin_of_input (hlines l)⟩,
    rfl, rfl, rfl, rfl⟩

/-- No command stops the machine: each has a next state, in which it has answered or, for a SHOW, begun (R241). -/
theorem exec_answers (i : Instr) (s : State) : ∃ t, exec i s = .next t :=
  (oneResponsePerCommand i s).imp fun _ => And.left

/-- Settles O49: of all that a step can do only a command is not a next state by itself, and every command has one. -/
theorem stepAlwaysAnswers : Obligations.StepAlwaysAnswers := by
  intro s
  rcases step_cases s with ⟨h, -⟩ | ⟨rest, -, h⟩ | ⟨o, rest, -, h⟩ | ⟨w, rest, why, -, -, -, h⟩ |
      ⟨w, rest, i, -, -, -, h⟩
  · exact ⟨_, h⟩
  · exact ⟨_, h⟩
  · exact ⟨_, h⟩
  · exact ⟨_, h⟩
  · obtain ⟨t, ht⟩ := exec_answers i { s with inputs := rest }
    exact ⟨t, h.trans ht⟩

end Sys2Proof.Machine

/-! ## Reset values, an idle block, and a reset during a SHOW (70_reset_and_hazards R270 to R272, R274, R282) -/

namespace Sys2Proof.Machine

/-! ### A SHOW cut short (R271, R282) -/

/-- With k idle inputs to come and more than k events pending, k steps use up the idle inputs and drive the first k
events; none of them is the last, so there is no response (R34). -/
theorem run_idle_pending {k : Nat} {s : State} {rest : List HostInput}
    (hin : s.inputs = List.replicate k .idle ++ rest) (hk : k < s.pending.length) :
    core.run k s = .next { s with
      inputs := rest
      pending := s.pending.drop k
      lines := s.lines.applyAll (s.pending.take k)
      tr := s.tr ++ s.pending.take k } := by
  induction k generalizing s with
  | zero =>
    obtain rfl : s.inputs = rest := hin
    simp
  | succ k ih =>
    rw [List.replicate_succ, List.cons_append] at hin
    cases hp : s.pending with
    | nil => simp [hp] at hk
    | cons e es =>
      have hk' : k < es.length := by simpa [hp] using hk
      have hes : es ≠ [] := List.ne_nil_of_length_pos (Nat.zero_lt_of_lt hk')
      have hdrive := sequencerStep_cons (s := { s with inputs := List.replicate k .idle ++ rest }) hp
      rw [run_succ ((step_of_idle hin).trans (congrArg _ hdrive)), ih rfl hk']
      simp [hes]

/-- The step that takes a SHOW and k idle ones, short of the end of its list, drive the first k events and give no
response (R34, R190). -/
theorem run_of_showCmd_idle {s : State} {k : Nat} {rest : List HostInput}
    (hin : s.inputs = .command (encode .showCmd) :: (List.replicate k .idle ++ rest)) (hp : s.pending = [])
    (hf : s.fault = false) (hd : s.initDone = true) (hk : k < (showEvents Config.params s.chan).length) :
    ∃ t, core.run (k + 1) s = .next t ∧ t.inputs = rest ∧
      t.tr = s.tr ++ (showEvents Config.params s.chan).take k ∧ t.responses = s.responses := by
  have hne : showEvents Config.params s.chan ≠ [] := List.ne_nil_of_length_pos (Nat.zero_lt_of_lt hk)
  have htaken := (step_of_command hin hp (decodeOfEncode .showCmd)).trans (exec_showCmd_of_initDone hf hd)
  exact ⟨_, (run_succ htaken k).trans (run_idle_pending rfl hk), rfl, rfl, by simp [hne]⟩

/-- Settles O29: the SHOW runs for k events, and the reset that follows appends itself and clears the rest. -/
theorem resetCutsShowShort : Obligations.ResetCutsShowShort := by
  intro s k o rest hin hp hf hd hk
  obtain ⟨t, hrun, hin', htr, hresp⟩ := run_of_showCmd_idle hin hp hf hd hk
  obtain ⟨u, hreset, hchan, hd', hf', hlines, hp', htr', hresp', hrest⟩ := resetStepClears t o rest hin'
  refine ⟨u, ?_, ?_, hresp'.trans hresp, hp', hd', hf', hchan, fun l => (hlines l).2, hrest⟩
  · rw [run_add hrun 1, run_succ hreset, run_zero]
  · rw [htr', htr]

/-! ### The values after a reset (R270) -/

/-- With both flags 0, RDSTAT answers BRIGHTNESS alone, in its place (R31, R222). -/
theorem exec_rdstat_of_flags_clear {s : State} (hf : s.fault = false) (hd : s.initDone = false) :
    exec .rdstat s =
      .next { s with responses := s.responses ++ [⟨.ok, Config.brightness.setWidth 32 <<< 8⟩] } := by
  have hview : statView bright s.fault s.initDone = Config.brightness.setWidth 32 <<< 8 := by
    simp [statView, bright, Config.params, hf, hd]
  rw [← hview]
  rfl

/-- The view of an ABSENT channel is 0 (R24). -/
theorem cfgView_of_absent {x : Option ChannelCfg} (h : x = none) : cfgView x = 0 := by
  rw [h, cfgView]

/-- At power-on every line is an input (R270). -/
theorem powerOnLines_mode_get (l : Line) : powerOnLines.mode.get l = .input :=
  PerLine.get_const LineMode.input l

/-- Settles O45: the values at power-on are read off; those after a later reset are what a reset step leaves. -/
theorem powerOnState : Obligations.PowerOnState := by
  constructor
  · exact ⟨fun c => ⟨chanAt_noChannels c, cfgView_of_absent (chanAt_noChannels c)⟩, rfl, rfl,
      fun l => ⟨powerOnLines_mode_get l, pin_of_input (powerOnLines_mode_get l)⟩, rfl, rfl, rfl,
      exec_rdstat_of_flags_clear rfl rfl⟩
  · intro s o rest hin
    obtain ⟨t, hst, hchan, hd, hf, hlines, hp, htr, -, -⟩ := resetStepClears s o rest hin
    exact ⟨t, hst, fun c => ⟨hchan c, cfgView_of_absent (hchan c)⟩, hd, hf, hlines, hp,
      (busy_eq_false_iff t).2 hp, htr, exec_rdstat_of_flags_clear hf hd⟩

/-! ### Nothing asked, nothing done (R272) -/

/-- With nothing offered and nothing pending the sequencer is all that could move, and it has nothing to drive. -/
theorem step_of_nothing_to_do {s : State} (hin : s.inputs = []) (hp : s.pending = []) : step s = .next s := by
  rw [step_of_no_inputs hin, sequencerStep_idle hp]

/-- Settles O47: at power-on there is nothing to do either. -/
theorem nothingHappensUnasked : Obligations.NothingHappensUnasked :=
  ⟨fun _ => step_of_nothing_to_do, step_of_nothing_to_do reset_inputs reset_pending⟩

/-! ### The invariants at power-on (R270, R274) -/

theorem channelsBounded_reset : ChannelsBounded State.reset := by
  intro c cfg hc
  simp at hc

/-- Before INIT the invariant asks for inputs and an empty PENDING. -/
theorem linesFollowInit_reset : LinesFollowInit State.reset :=
  ⟨fun _ => ⟨powerOnLines_mode_get, rfl⟩, fun hd => by simp at hd⟩

/-- The empty trace replays to the lines at power-on. -/
theorem pinsFollowTrace_reset : PinsFollowTrace State.reset :=
  ⟨fun _ => rfl, fun _ _ => rfl, nofun⟩

/-- Settles O59: FAULT and INIT_DONE are 0, so the two invariants that presume one of them ask for nothing. -/
theorem powerOnMeetsInvariants : Obligations.PowerOnMeetsInvariants :=
  ⟨channelsBounded_reset, fun _ => reset_initDone, linesFollowInit_reset, pinsFollowTrace_reset,
    fun _ => pulsesSafe_nil _⟩

end Sys2Proof.Machine
